-- ==== Sys2Proof/Word.lean ====
section
/-! DEFINITION. The word types of BMPQ: bytes, command words, 24-bit colours and the 16-entry palette. -/

namespace Sys2Proof

/-- A byte is 8 bits (00_scope.md R8). -/
abbrev Byte := BitVec 8

/-- A command is one word of 32 bits (30_encoding.md R90). -/
abbrev Word := BitVec 32

/-- A 24-bit colour: the bytes blue, green, red, in stream order (20_memory.md R65, 30_encoding.md R99). -/
structure Color24 where
  blue : Byte
  green : Byte
  red : Byte
  deriving DecidableEq, Repr, Inhabited

/-- The palette table: 16 entries of three bytes; the file format's fourth byte is not stored (41_palette.md R160). -/
abbrev Palette := Vector Color24 16

/-- The pixel of three zero bytes (41_palette.md R162). -/
def Color24.allZero : Color24 := ⟨0x00, 0x00, 0x00⟩

/-- The pixel of three bytes 255 (41_palette.md R162). -/
def Color24.allOnes : Color24 := ⟨0xFF, 0xFF, 0xFF⟩

end Sys2Proof
end

