-- ==== Sys2Proof/Syntax.lean ====
section
/-! DEFINITION. The commands of BMPQ as syntax: one constructor per row of spec/opcode_table.json (30_encoding.md
R92), and the assembler form of a command (30_encoding.md R105). -/

namespace Sys2Proof

/-- The 11 commands (30_encoding.md R92). `quant` carries the pixel of its `imm24` (R93). -/
inductive Instr where
  /-- `RD_FH`: read the FileHeader (40_header_codec.md R131). -/
  | rdFh
  /-- `RD_IH`: read the InfoHeader (40_header_codec.md R132). -/
  | rdIh
  /-- `CHK_SIG`: check the signature (40_header_codec.md R135). -/
  | chkSig
  /-- `CHK_BPP`: check the bit depth (40_header_codec.md R136). -/
  | chkBpp
  /-- `HDR_CVT`: rewrite the header fields for the 4-bit output (40_header_codec.md R138). -/
  | hdrCvt
  /-- `WR_FH`: write the FileHeader (40_header_codec.md R133). -/
  | wrFh
  /-- `WR_IH`: write the InfoHeader (40_header_codec.md R134). -/
  | wrIh
  /-- `WR_PAL`: write the palette block (41_palette.md R164). -/
  | wrPal
  /-- `PACK_ROW`: read, quantize, pack and write one row (43_row_packer.md R186). -/
  | packRow
  /-- `QUANT blue, green, red`: nearest palette index of one pixel (42_quantizer.md R174). -/
  | quant (blue green red : Byte)
  /-- `CLR`: return to the reset state (44_system_and_sequences.md R191). -/
  | clr
  deriving DecidableEq, Repr

/-- The mnemonic of a command (30_encoding.md R92). -/
def Instr.mnemonic : Instr → String
  | .rdFh => "RD_FH"
  | .rdIh => "RD_IH"
  | .chkSig => "CHK_SIG"
  | .chkBpp => "CHK_BPP"
  | .hdrCvt => "HDR_CVT"
  | .wrFh => "WR_FH"
  | .wrIh => "WR_IH"
  | .wrPal => "WR_PAL"
  | .packRow => "PACK_ROW"
  | .quant _ _ _ => "QUANT"
  | .clr => "CLR"

/-- The assembler line of a command: the mnemonic, and for `QUANT` the decimal operands blue, green, red
(30_encoding.md R105). -/
def Instr.assembly : Instr → String
  | .quant blue green red =>
    "QUANT " ++ toString blue.toNat ++ ", " ++ toString green.toNat ++ ", " ++ toString red.toNat
  | .rdFh => "RD_FH"
  | .rdIh => "RD_IH"
  | .chkSig => "CHK_SIG"
  | .chkBpp => "CHK_BPP"
  | .hdrCvt => "HDR_CVT"
  | .wrFh => "WR_FH"
  | .wrIh => "WR_IH"
  | .wrPal => "WR_PAL"
  | .packRow => "PACK_ROW"
  | .clr => "CLR"

end Sys2Proof
end

