-- ==== Sys2Proof/WellFormed.lean ====
section
/-! DEFINITION. Well-formedness: of a command as syntax, and of a 32-bit word as a command word (30_encoding.md R91,
R93, R95). The two checks on a word are written here apart from the decoder, so that the two can be compared. -/

namespace Sys2Proof

/-- Every command of the syntax is well formed: a `CMD0` command has no operand and "every 24-bit value is a legal
pixel", so the operand types hold exactly the encodable values and no ill-formed command can be written
(30_encoding.md R91, R93). -/
def Instr.wellFormed : Instr → Bool
  | .rdFh => true
  | .rdIh => true
  | .chkSig => true
  | .chkBpp => true
  | .hdrCvt => true
  | .wrFh => true
  | .wrIh => true
  | .wrPal => true
  | .packRow => true
  | .quant _ _ _ => true
  | .clr => true

/-- First check on a word: bits 31:24 are one of the 11 assigned opcodes; 0x00, 0x0B to 0x0E and 0x10 to 0xFF are
unassigned (30_encoding.md R92, R95). -/
def opcodeAssigned (w : Word) : Bool :=
  let op := w.toNat / 2 ^ 24
  (1 ≤ op && op ≤ 0x0A) || op == 0x0F

/-- Second check on a word: `imm24` is 0 unless the opcode is that of `QUANT` (30_encoding.md R91, R95). -/
def immediateAllowed (w : Word) : Bool :=
  w.toNat / 2 ^ 24 == 0x0A || w.toNat % 2 ^ 24 == 0

/-- A word is a legal command word when it passes both checks; otherwise it is illegal (30_encoding.md R95). -/
def wordLegal (w : Word) : Bool := opcodeAssigned w && immediateAllowed w

end Sys2Proof
end

