-- ==== Sys2Proof/Decode.lean ====
section
/-! DEFINITION. The decoder, total on all 32-bit words, rejecting by name, and after it the encoder (30_encoding.md
R90 to R96). Decoding depends on the word alone. -/

namespace Sys2Proof

/-- Why a word is `ILLEGAL` (30_encoding.md R95). The machine treats both alike (60_exceptions.md R207). -/
inductive DecodeError where
  /-- The opcode 0x00, 0x0B to 0x0E or 0x10 to 0xFF is unassigned. -/
  | unassignedOpcode (opcode : Byte)
  /-- A `CMD0` opcode with a non-zero `imm24`. -/
  | immediateNotZero (opcode : Byte) (imm24 : BitVec 24)
  deriving DecidableEq, Repr

/-- `opcode`, bits 31:24 of a word (30_encoding.md R90). -/
def opcodeField (w : Word) : Byte := w.extractLsb' 24 8

/-- `imm24`, bits 23:0 of a word (30_encoding.md R90). -/
def imm24Field (w : Word) : BitVec 24 := w.extractLsb' 0 24

/-- The opcode of `QUANT`, the one command of format `CMD24` (30_encoding.md R91, R92). -/
def quantOpcode : Byte := 0x0A

/-- The `CMD0` rows of the opcode map (30_encoding.md R92). -/
def cmd0Rows : List (Byte × Instr) :=
  [(0x01, .rdFh), (0x02, .rdIh), (0x03, .chkSig), (0x04, .chkBpp), (0x05, .hdrCvt), (0x06, .wrFh), (0x07, .wrIh),
    (0x08, .wrPal), (0x09, .packRow), (0x0F, .clr)]

/-- The pixel in the immediate of `QUANT`: blue bits 7:0, green bits 15:8, red bits 23:16 (30_encoding.md R93). -/
def quantOf (imm : BitVec 24) : Instr :=
  .quant (imm.extractLsb' 0 8) (imm.extractLsb' 8 8) (imm.extractLsb' 16 8)

/-- Decoding of a command word (30_encoding.md R94). -/
def decode (w : Word) : Except DecodeError Instr :=
  if opcodeField w = quantOpcode then .ok (quantOf (imm24Field w))
  else
    match cmd0Rows.lookup (opcodeField w) with
    | none => .error (.unassignedOpcode (opcodeField w))
    | some i => if imm24Field w = 0 then .ok i else .error (.immediateNotZero (opcodeField w) (imm24Field w))

/-- The opcode of a command (30_encoding.md R92). -/
def Instr.opcode : Instr → Byte
  | .rdFh => 0x01
  | .rdIh => 0x02
  | .chkSig => 0x03
  | .chkBpp => 0x04
  | .hdrCvt => 0x05
  | .wrFh => 0x06
  | .wrIh => 0x07
  | .wrPal => 0x08
  | .packRow => 0x09
  | .quant _ _ _ => quantOpcode
  | .clr => 0x0F

/-- The immediate of a command: for `QUANT` red, green, blue from bit 23 down, else 0 (30_encoding.md R91, R93). -/
def Instr.immediate : Instr → BitVec 24
  | .quant blue green red => red ++ green ++ blue
  | .rdFh => 0
  | .rdIh => 0
  | .chkSig => 0
  | .chkBpp => 0
  | .hdrCvt => 0
  | .wrFh => 0
  | .wrIh => 0
  | .wrPal => 0
  | .packRow => 0
  | .clr => 0

/-- The word of a command (30_encoding.md R90): opcode in bits 31:24, immediate in bits 23:0. -/
def encode (i : Instr) : Word := i.opcode ++ i.immediate

/-- The instruction the decoder reads from the table's bits `w` of a row of `nbits` bits; bits above are 0. A command
word is presented whole and has no byte order (20_memory.md R64; notes/assumptions/2.md). -/
def decodeTableWord (nbits w : Nat) : Option Instr :=
  match decode (BitVec.ofNat 32 (w % 2 ^ nbits)) with
  | .ok i => some i
  | .error _ => none

end Sys2Proof
end

