-- ==== Sys2Proof/Machine/Distance.lean ====
section
/-! DEFINITION. The squared colour distance (42_quantizer.md R170, R173). It stands before the configuration because
the constraint on the palette (41_palette.md R162) is written in it. -/

namespace Sys2Proof.Machine

/-- The difference of two unsigned components, a mathematical integer between -255 and 255 (42_quantizer.md R170). -/
def componentDiff (a b : Byte) : Int := (a.toNat : Int) - (b.toNat : Int)

/-- `dist2(p, e)`: the sum of the three squared component differences, exact, equal weights (42_quantizer.md R170). -/
def dist2 (p e : Color24) : Int :=
  componentDiff p.blue e.blue * componentDiff p.blue e.blue
    + componentDiff p.green e.green * componentDiff p.green e.green
    + componentDiff p.red e.red * componentDiff p.red e.red

end Sys2Proof.Machine
end

