-- ==== Sys2Proof/Config.lean ====
section
/-! DEFINITION. What is fixed for one BMPQ: the constants of the source (00_scope.md R6) and the open parameter
`PALETTE` (00_scope.md R7, 41_palette.md R162). -/

namespace Sys2Proof

/-- `N_PAL` (00_scope.md R6). -/
def Config.paletteEntries : Nat := 16
/-- `FH_BYTES` (00_scope.md R6). -/
def Config.fileHeaderBytes : Nat := 14
/-- `IH_BYTES` (00_scope.md R6). -/
def Config.infoHeaderBytes : Nat := 40
/-- `PAL_BYTES` (00_scope.md R6). -/
def Config.paletteBytes : Nat := 64
/-- `HDR_TOTAL` = 14 + 40 + 64 (00_scope.md R6). -/
def Config.headerTotal : Nat := 118
/-- `IN_BPP` (00_scope.md R6). -/
def Config.inputDepth : BitVec 16 := 24
/-- `OUT_BPP` (00_scope.md R6). -/
def Config.outputDepth : BitVec 16 := 4
/-- `ROW_ALIGN`, in bytes (00_scope.md R6). -/
def Config.rowAlign : Nat := 4
/-- `SIG_BYTES` 0x42 then 0x4D, read as the little-endian 16-bit value of register 0 (00_scope.md R6, 10_state.md R21). -/
def Config.signature : BitVec 16 := 0x4D42
/-- `PIXEL_BYTES` (00_scope.md R6). -/
def Config.pixelBytes : Nat := 3
/-- `PAL_ENTRY_BYTES` (00_scope.md R6). -/
def Config.paletteEntryBytes : Nat := 4
/-- `CURSOR_BITS` is 64: a stream is shorter than this many bytes (00_scope.md R7, 10_state.md R29). -/
def Config.streamLimit : Nat := 2 ^ 64

/-- What the source fixes about the palette's values (41_palette.md R162 item 2): the pixel (0, 0, 0) is at least as
near to entry 0 as to every other entry, and (255, 255, 255) is strictly nearer to entry 15 than to every other. -/
abbrev Palette.Legal (pal : Palette) : Prop :=
  (∀ j : Fin 16, Machine.dist2 Color24.allZero pal[0] ≤ Machine.dist2 Color24.allZero pal[j]) ∧
  (∀ j : Fin 15, Machine.dist2 Color24.allOnes pal[15] < Machine.dist2 Color24.allOnes pal[j.castSucc])

/-- `PALETTE_DEFAULT`: the spec's illustrative table, NOT the hardware's (41_palette.md R163). The model's tests use
it; no definition of the machine does, but that it shows a legal palette to exist. -/
def Config.paletteDefault : Palette :=
  #v[⟨0, 0, 0⟩, ⟨0, 0, 255⟩, ⟨0, 128, 255⟩, ⟨128, 128, 255⟩, ⟨0, 255, 255⟩, ⟨0, 128, 128⟩, ⟨0, 128, 0⟩, ⟨0, 255, 0⟩,
    ⟨128, 255, 128⟩, ⟨128, 0, 0⟩, ⟨255, 0, 0⟩, ⟨128, 0, 128⟩, ⟨255, 0, 255⟩, ⟨255, 255, 0⟩, ⟨128, 128, 128⟩,
    ⟨255, 255, 255⟩]

/-- A palette together with the proof that it meets 41_palette.md R162. -/
structure LegalPalette where
  table : Palette
  legal : table.Legal
  deriving DecidableEq, Repr

/-- `PALETTE_DEFAULT` meets R162 (41_palette.md R163 says so). -/
def Config.legalDefault : LegalPalette := ⟨Config.paletteDefault, by decide⟩

/-- An uninterpreted choice of a legal palette. Its argument only shows that one exists; no value of it can be
evaluated or proved beyond 41_palette.md R162. DESIGN CHOICE (notes/assumptions/5.md). Safe. -/
opaque Config.someLegalPalette [Inhabited LegalPalette] : LegalPalette

/-- `PALETTE`, the constant table of this BMPQ: open but for R162 (41_palette.md R162, 92_eei_decisions.md D20).
DESIGN CHOICE (notes/assumptions/5.md). Safe. -/
def Config.palette : LegalPalette := @Config.someLegalPalette ⟨Config.legalDefault⟩

end Sys2Proof
end

