-- ==== Sys2Proof/Machine/State.lean ====
section
/-! DEFINITION. The state of BMPQ (10_state.md), the reasons a step can stop, and the state after reset (10_state.md
R36, 70_reset_and_hazards.md R230). -/

namespace Sys2Proof.Machine

/-- Header field registers 0 to 4, the FileHeader (10_state.md R21, 30_encoding.md R97). -/
structure FileHeader where
  /-- Register 0. -/
  signature : BitVec 16
  /-- Register 1. -/
  fileSize : BitVec 32
  /-- Register 2. -/
  reserved1 : BitVec 16
  /-- Register 3. -/
  reserved2 : BitVec 16
  /-- Register 4. -/
  pixelDataOffset : BitVec 32
  deriving DecidableEq, Repr

/-- Header field registers 5 to 15, the InfoHeader (10_state.md R21, 30_encoding.md R98). The i32 fields hold their
32-bit patterns (10_state.md R22). -/
structure InfoHeader where
  /-- Register 5. -/
  headerSize : BitVec 32
  /-- Register 6, i32. -/
  width : BitVec 32
  /-- Register 7, i32. -/
  height : BitVec 32
  /-- Register 8. -/
  planes : BitVec 16
  /-- Register 9. -/
  bitsPerPixel : BitVec 16
  /-- Register 10. -/
  compression : BitVec 32
  /-- Register 11. -/
  imageSize : BitVec 32
  /-- Register 12, i32. -/
  xPelsPerMeter : BitVec 32
  /-- Register 13, i32. -/
  yPelsPerMeter : BitVec 32
  /-- Register 14. -/
  colorsUsed : BitVec 32
  /-- Register 15. -/
  colorsImportant : BitVec 32
  deriving DecidableEq, Repr

/-- The FileHeader registers after reset: 0, every bit (10_state.md R36). -/
def FileHeader.zero : FileHeader := ⟨0, 0, 0, 0, 0⟩

/-- The InfoHeader registers after reset: 0, every bit (10_state.md R36). -/
def InfoHeader.zero : InfoHeader := ⟨0, 0, 0, 0, 0, 0, 0, 0, 0, 0, 0⟩

/-- What the host does at the command port and the reset input (10_state.md R43). -/
inductive HostEvent where
  /-- The host presents a 32-bit command word. -/
  | command (word : Word)
  /-- The host resets the hardware. -/
  | hardwareReset
  deriving DecidableEq, Repr

/-- The state of one BMPQ, with the environment's outstanding acts as plain data (INVENTORY.md, State). -/
structure State where
  /-- Registers 0 to 4 (10_state.md R21). -/
  fh : FileHeader
  /-- Registers 5 to 15 (10_state.md R21). -/
  ih : InfoHeader
  /-- `FH_V` (10_state.md R26). -/
  fhV : Bool
  /-- `IH_V` (10_state.md R27). -/
  ihV : Bool
  /-- `ERR` (10_state.md R28). -/
  err : BitVec 4
  /-- `IDX`, register 17 (10_state.md R24). -/
  idx : BitVec 4
  /-- `ICUR`, register 18 (10_state.md R29). -/
  icur : BitVec 64
  /-- `OCUR`, register 19 (10_state.md R29). -/
  ocur : BitVec 64
  /-- `OUT`, the bytes appended so far (10_state.md R31). -/
  out : List Byte
  /-- `IN`, the input bytes of the run (10_state.md R32). -/
  input : List Byte
  /-- `PAL`, the palette table, read only (10_state.md R33). -/
  pal : Palette
  /-- The environment: the input sequences of the coming runs, next first. DESIGN CHOICE
  (notes/assumptions/3.md). Unsafe. -/
  supply : List (List Byte)
  /-- The environment: the host's events not yet served, next first. DESIGN CHOICE (notes/assumptions/1.md). Safe. -/
  pending : List HostEvent
  deriving DecidableEq, Repr

/-- The error kinds of BMPQ (60_exceptions.md R200). An error is a next state, not a fault of the model. -/
inductive BmpError where
  /-- "source/destination path not accessible"; never raised by BMPQ (60_exceptions.md R201). -/
  | openError
  /-- `SignatureError` (60_exceptions.md R202); the source's `FormatError` is the same (R221). -/
  | signatureError
  /-- `DepthError` (60_exceptions.md R203). -/
  | depthError
  /-- `ShortReadError` (60_exceptions.md R204); the codec's `ReadError` is the same (R221). -/
  | shortReadError
  /-- `GeometryError` (60_exceptions.md R205). -/
  | geometryError
  /-- `UninitError` (60_exceptions.md R206). -/
  | uninitError
  /-- `IllegalCommand` (60_exceptions.md R207). -/
  | illegalCommand
  deriving DecidableEq, Repr

/-- Why the machine stops with a fault. -/
inductive Fault where
  /-- Raised by `outWrite` when `OCUR` is not `length(OUT)`, where `MemWrite` is not defined (00_scope.md R11). Safe;
  no run reaches it (notes/assumptions/6.md). -/
  | outputCursorAstray
  deriving DecidableEq, Repr

/-- Why a step has no meaning. -/
inductive Refusal where
  /-- Raised by an arm of `exec` whose instruction has no meaning yet. Safe; no arm does. -/
  | notModelled (mnemonic : String)
  /-- Raised by `inRead` when `IN` has 2^64 bytes or more, "outside this spec" (10_state.md R29,
  93_implementation_defined.md U20 refuse). Safe (notes/assumptions/7.md). -/
  | inputTooLong
  /-- Raised by `outWrite` when `OUT` would reach 2^64 bytes, "outside this spec" (10_state.md R29,
  93_implementation_defined.md U20 refuse). Safe (notes/assumptions/7.md). -/
  | outputTooLong
  deriving DecidableEq, Repr

/-- What a command answers. -/
abbrev Result := Host.Outcome State Fault Refusal

/-- The state after the hardware reset (10_state.md R36): every register, flag and cursor 0, `OUT` empty, `PAL` the
constant `PALETTE`. `IN` is the environment's choice: here nothing is bound, supplied or presented yet, DESIGN CHOICE
(notes/assumptions/4.md). Unsafe. -/
def State.reset : State where
  fh := FileHeader.zero
  ih := InfoHeader.zero
  fhV := false
  ihV := false
  err := 0
  idx := 0
  icur := 0
  ocur := 0
  out := []
  input := []
  pal := Config.palette.table
  supply := []
  pending := []

end Sys2Proof.Machine
end

