-- ==== Sys2Proof/Machine/Flags.lean ====
section
/-! DEFINITION. The control fields: the error codes, the halted condition and the status word (10_state.md R25 to R28,
60_exceptions.md R200). BMPQ has no arithmetic flags. -/

namespace Sys2Proof.Machine

/-- `code(E)` (60_exceptions.md R200). -/
def errorCode : BmpError → BitVec 4
  | .openError => 1
  | .signatureError => 2
  | .depthError => 3
  | .shortReadError => 4
  | .geometryError => 5
  | .uninitError => 6
  | .illegalCommand => 7

/-- BMPQ is halted while `ERR != 0` (10_state.md R28, 60_exceptions.md R211). -/
def halted (s : State) : Bool := s.err != 0

/-- One bit from a flag. -/
def flagBit (b : Bool) : BitVec 1 := if b then 1 else 0

/-- `STATUS`: `ERR` in bits 3:0, `FH_V` in bit 4, `IH_V` in bit 5, bits 31:6 read 0 (10_state.md R25). -/
def statusWord (s : State) : BitVec 32 := (0 : BitVec 26) ++ flagBit s.ihV ++ flagBit s.fhV ++ s.err

end Sys2Proof.Machine
end

