-- ==== Sys2Proof/Machine/Operands.lean ====
section
/-! DEFINITION. Operand forms: the signed view of a register, the derived views `W`, `H`, `rowBytes`, `inPad`
(10_state.md R35, 30_encoding.md R103), little-endian fields (00_scope.md R10), and the pixels of a row
(43_row_packer.md R185). -/

namespace Sys2Proof.Machine

/-- `signed32(v)` (00_scope.md R9). -/
def signed32 (v : BitVec 32) : Int := if v.toNat < 2 ^ 31 then (v.toNat : Int) else (v.toNat : Int) - 2 ^ 32

/-- `W = signed32(x[width])` (10_state.md R35). -/
def widthOf (s : State) : Int := signed32 s.ih.width

/-- `H = signed32(x[height])` (10_state.md R35). -/
def heightOf (s : State) : Int := signed32 s.ih.height

/-- `rowBytes(w) = 4 * ceil(w / 8)`, on mathematical integers (10_state.md R35, 43_row_packer.md R188). -/
def rowBytes (w : Nat) : Nat := 4 * ((w + 7) / 8)

/-- `inPad(W) = (4 - (3 * W) mod 4) mod 4` (30_encoding.md R103). -/
def inPad (w : Nat) : Nat := (4 - 3 * w % 4) % 4

/-- `inRowBytes = 3 * W + inPad(W)`, the bytes of one input row (20_memory.md R67, R69). -/
def inRowBytes (w : Nat) : Nat := 3 * w + inPad w

/-- Byte number `k` of a byte sequence (00_scope.md R10). The commands ask only for bytes that are there. -/
def byteAt (b : List Byte) (k : Nat) : Byte := b.getD k 0

/-- `LE16(b, k)` (00_scope.md R10). -/
def le16At (b : List Byte) (k : Nat) : BitVec 16 := byteAt b (k + 1) ++ byteAt b k

/-- `LE32(b, k)` (00_scope.md R10). -/
def le32At (b : List Byte) (k : Nat) : BitVec 32 :=
  byteAt b (k + 3) ++ byteAt b (k + 2) ++ byteAt b (k + 1) ++ byteAt b k

/-- `le16(v)` (00_scope.md R10). -/
def le16 (v : BitVec 16) : List Byte := [v.extractLsb' 0 8, v.extractLsb' 8 8]

/-- `le32(v)` (00_scope.md R10). -/
def le32 (v : BitVec 32) : List Byte :=
  [v.extractLsb' 0 8, v.extractLsb' 8 8, v.extractLsb' 16 8, v.extractLsb' 24 8]

/-- The FileHeader of 14 bytes (30_encoding.md R97, 40_header_codec.md R131). -/
def unpackFileHeader (b : List Byte) : FileHeader where
  signature := le16At b 0
  fileSize := le32At b 2
  reserved1 := le16At b 6
  reserved2 := le16At b 8
  pixelDataOffset := le32At b 10

/-- The 14 bytes of a FileHeader (30_encoding.md R97, 40_header_codec.md R133). -/
def packFileHeader (h : FileHeader) : List Byte :=
  le16 h.signature ++ le32 h.fileSize ++ le16 h.reserved1 ++ le16 h.reserved2 ++ le32 h.pixelDataOffset

/-- The InfoHeader of 40 bytes (30_encoding.md R98, 40_header_codec.md R132). -/
def unpackInfoHeader (b : List Byte) : InfoHeader where
  headerSize := le32At b 0
  width := le32At b 4
  height := le32At b 8
  planes := le16At b 12
  bitsPerPixel := le16At b 14
  compression := le32At b 16
  imageSize := le32At b 20
  xPelsPerMeter := le32At b 24
  yPelsPerMeter := le32At b 28
  colorsUsed := le32At b 32
  colorsImportant := le32At b 36

/-- The 40 bytes of an InfoHeader (30_encoding.md R98, 40_header_codec.md R134). -/
def packInfoHeader (h : InfoHeader) : List Byte :=
  le32 h.headerSize ++ le32 h.width ++ le32 h.height ++ le16 h.planes ++ le16 h.bitsPerPixel ++ le32 h.compression
    ++ le32 h.imageSize ++ le32 h.xPelsPerMeter ++ le32 h.yPelsPerMeter ++ le32 h.colorsUsed ++ le32 h.colorsImportant

/-- The `w` pixels at the front of a row's bytes: pixel `c` is the bytes `3c`, `3c + 1`, `3c + 2` as blue, green, red;
what follows them, the padding, is ignored (43_row_packer.md R185). -/
def pixelsOf : Nat → List Byte → List Color24
  | w + 1, blue :: green :: red :: rest => ⟨blue, green, red⟩ :: pixelsOf w rest
  | _, _ => []

/-- A palette entry in the file: blue, green, red, 0 (30_encoding.md R100). -/
def paletteEntryBytes (e : Color24) : List Byte := [e.blue, e.green, e.red, 0]

/-- The palette block: the 16 entries in index order, 64 bytes (30_encoding.md R101). -/
def paletteBlock (pal : Palette) : List Byte := (List.finRange 16).flatMap fun i => paletteEntryBytes pal[i]

end Sys2Proof.Machine
end

