-- ==== Sys2Proof/Machine/Ops.lean ====
section
/-! DEFINITION. The named operations over the state: raising an error and leaving the halted state (60_exceptions.md
R210, R213), the two stream accesses (20_memory.md R61, R62), and the register writes of the commands. -/

namespace Sys2Proof.Machine

/-- `raise E`: `ERR <- code(E)` and nothing else; what a short read does to `ICUR` is `State.exhaust`
(60_exceptions.md R210). -/
def raise (e : BmpError) (s : State) : State := { s with err := errorCode e }

/-- The next input sequence the environment supplies; an exhausted supply supplies the empty sequence. DESIGN CHOICE
(notes/assumptions/3.md). Unsafe. -/
def nextInput : List (List Byte) → List Byte
  | [] => []
  | b :: _ => b

/-- The reset of all state, by the hardware reset and by `CLR` alike: the only way out of the halted state
(10_state.md R36, 60_exceptions.md R213, 70_reset_and_hazards.md R230, R231). `PAL` stays; the host's events not yet
served stay. -/
def clear (s : State) : State where
  fh := FileHeader.zero
  ih := InfoHeader.zero
  fhV := false
  ihV := false
  err := 0
  idx := 0
  icur := 0
  ocur := 0
  out := []
  input := nextInput s.supply
  pal := s.pal
  supply := s.supply.tail
  pending := s.pending

/-- `ICUR <- ICUR + n` (20_memory.md R61). -/
def State.consume (n : Nat) (s : State) : State := { s with icur := s.icur + BitVec.ofNat 64 n }

/-- `ICUR <- ILEN`: what was left is consumed (20_memory.md R61). -/
def State.exhaust (s : State) : State := { s with icur := BitVec.ofNat 64 s.input.length }

/-- `OUT <- OUT ++ v`, `OCUR <- OCUR + n` (20_memory.md R62). -/
def State.append (v : List Byte) (s : State) : State :=
  { s with out := s.out ++ v, ocur := s.ocur + BitVec.ofNat 64 v.length }

/-- Registers 0 to 4 loaded, `FH_V <- 1` (40_header_codec.md R131). -/
def State.loadFh (h : FileHeader) (s : State) : State := { s with fh := h, fhV := true }

/-- Registers 5 to 15 loaded, `IH_V <- 1` (40_header_codec.md R132). -/
def State.loadIh (h : InfoHeader) (s : State) : State := { s with ih := h, ihV := true }

/-- Header registers rewritten, valid flags kept (40_header_codec.md R138). -/
def State.rewriteHeaders (f : FileHeader) (h : InfoHeader) (s : State) : State := { s with fh := f, ih := h }

/-- `x[IDX] <- k` (42_quantizer.md R174). -/
def State.setIdx (k : BitVec 4) (s : State) : State := { s with idx := k }

/-- The host's events still to be served (notes/assumptions/1.md). -/
def State.withPending (later : List HostEvent) (s : State) : State := { s with pending := later }

/-- `MemRead(ICUR, n)`: the `n` bytes of `IN` from `ICUR` (00_scope.md R11). -/
def memRead (n : Nat) (s : State) : List Byte := (s.input.drop s.icur.toNat).take n

/-- `InRead(n)`, then the rest of the command on the bytes read and the state with `ICUR` moved (20_memory.md R61).
An input of 2^64 bytes or more is outside the spec and refused (notes/assumptions/7.md). -/
def inRead (n : Nat) (s : State) (rest : List Byte → State → Result) : Result :=
  if Config.streamLimit ≤ s.input.length then .refused .inputTooLong
  else if s.icur.toNat + n > s.input.length then .next (raise .shortReadError s.exhaust)
  else rest (memRead n s) (s.consume n)

/-- `OutWrite(v)` (20_memory.md R62). `MemWrite` is defined only at `OCUR = length(OUT)` (00_scope.md R11,
notes/assumptions/6.md); an output of 2^64 bytes or more is outside the spec and refused (notes/assumptions/7.md). -/
def outWrite (v : List Byte) (s : State) : Result :=
  if s.ocur.toNat ≠ s.out.length then .fault .outputCursorAstray
  else if Config.streamLimit ≤ s.out.length + v.length then .refused .outputTooLong
  else .next (s.append v)

/-- A command that needs the FileHeader raises `UninitError` when `FH_V = 0` (10_state.md R26, 60_exceptions.md R206). -/
def needFileHeader (s : State) (rest : Result) : Result := if s.fhV then rest else .next (raise .uninitError s)

/-- A command that needs the InfoHeader raises `UninitError` when `IH_V = 0` (10_state.md R27, 60_exceptions.md R206). -/
def needInfoHeader (s : State) (rest : Result) : Result := if s.ihV then rest else .next (raise .uninitError s)

end Sys2Proof.Machine
end

