-- ==== Sys2Proof/Machine/HeaderCodec.lean ====
section
/-! DEFINITION. The header field codec: `RD_FH`, `RD_IH`, `CHK_SIG`, `CHK_BPP`, `HDR_CVT`, `WR_FH`, `WR_IH`
(40_header_codec.md). Each meaning is that of a command that executes, with `ERR = 0` (R130). -/

namespace Sys2Proof.Machine

/-- `RD_FH` (40_header_codec.md R131). -/
def execRdFh (s : State) : Result :=
  inRead Config.fileHeaderBytes s fun b t => .next (t.loadFh (unpackFileHeader b))

/-- `RD_IH` (40_header_codec.md R132). -/
def execRdIh (s : State) : Result :=
  inRead Config.infoHeaderBytes s fun b t => .next (t.loadIh (unpackInfoHeader b))

/-- `CHK_SIG` (40_header_codec.md R135, 60_exceptions.md R202). -/
def execChkSig (s : State) : Result :=
  needFileHeader s (if s.fh.signature = Config.signature then .next s else .next (raise .signatureError s))

/-- `CHK_BPP` (40_header_codec.md R136, 60_exceptions.md R203). -/
def execChkBpp (s : State) : Result :=
  needInfoHeader s (if s.ih.bitsPerPixel = Config.inputDepth then .next s else .next (raise .depthError s))

/-- `pixelArraySize = rowBytes(W) * H`, exact (40_header_codec.md R137). -/
def pixelArraySize (w h : Nat) : Nat := rowBytes w * h

/-- The FileHeader for the 4-bit output, modulo 2^32 (40_header_codec.md R137, R138). -/
def convertFileHeader (w h : Nat) (f : FileHeader) : FileHeader :=
  { f with
    fileSize := BitVec.ofNat 32 (pixelArraySize w h + Config.headerTotal)
    pixelDataOffset := f.pixelDataOffset + BitVec.ofNat 32 Config.paletteBytes }

/-- The InfoHeader for the 4-bit output, modulo 2^32 (40_header_codec.md R137, R138). -/
def convertInfoHeader (w h : Nat) (i : InfoHeader) : InfoHeader :=
  { i with
    bitsPerPixel := Config.outputDepth
    imageSize := BitVec.ofNat 32 (pixelArraySize w h) }

/-- `HDR_CVT` (40_header_codec.md R138): `UninitError` unless both headers are loaded, then `GeometryError` on a
negative width or height, else four registers rewritten. -/
def execHdrCvt (s : State) : Result :=
  needFileHeader s <| needInfoHeader s <|
    if widthOf s < 0 ∨ heightOf s < 0 then .next (raise .geometryError s)
    else
      let w := (widthOf s).toNat
      let h := (heightOf s).toNat
      .next (s.rewriteHeaders (convertFileHeader w h s.fh) (convertInfoHeader w h s.ih))

/-- `WR_FH` (40_header_codec.md R133). -/
def execWrFh (s : State) : Result := needFileHeader s (outWrite (packFileHeader s.fh) s)

/-- `WR_IH` (40_header_codec.md R134). -/
def execWrIh (s : State) : Result := needInfoHeader s (outWrite (packInfoHeader s.ih) s)

end Sys2Proof.Machine
end

