-- ==== Sys2Proof/Machine/PaletteTable.lean ====
section
/-! DEFINITION. The palette table's command `WR_PAL` (41_palette.md R164). -/

namespace Sys2Proof.Machine

/-- `WR_PAL`: the 64-byte palette block appended; no register, no flag, no error (41_palette.md R164). -/
def execWrPal (s : State) : Result := outWrite (paletteBlock s.pal) s

end Sys2Proof.Machine
end

