-- ==== Sys2Proof/Machine/Quantizer.lean ====
section
/-! DEFINITION. The colour quantizer: `nearestIndex` and `QUANT` (42_quantizer.md R170 to R176). -/

namespace Sys2Proof.Machine

/-- The ascending scan of `nearestIndex` over the entries that remain: entry number `i` comes next, `best` is the
index of the nearest so far and `bestd` its distance; a later entry wins only if strictly nearer
(42_quantizer.md R171, R172). -/
def nearestScan (p : Color24) : List Color24 → (i best : Nat) → (bestd : Int) → Nat
  | [], _, best, _ => best
  | e :: rest, i, best, bestd =>
    if dist2 p e < bestd then nearestScan p rest (i + 1) i (dist2 p e)
    else nearestScan p rest (i + 1) best bestd

/-- `nearestIndex(p)`: the scan begins with entry 0 as the best and goes on with entries 1 to 15
(42_quantizer.md R171). -/
def nearestIndex (pal : Palette) (p : Color24) : BitVec 4 :=
  BitVec.ofNat 4 (nearestScan p pal.toList.tail 1 0 (dist2 p pal[0]))

/-- `QUANT blue, green, red`: `IDX <- nearestIndex` of the pixel; no error (42_quantizer.md R174). -/
def execQuant (blue green red : Byte) (s : State) : Result :=
  .next (s.setIdx (nearestIndex s.pal ⟨blue, green, red⟩))

end Sys2Proof.Machine
end

