-- ==== Sys2Proof/Machine/RowPacker.lean ====
section
/-! DEFINITION. The row packer: `packRow` and `PACK_ROW` (43_row_packer.md R180 to R188). -/

namespace Sys2Proof.Machine

/-- A packed byte: the left pixel's index in bits 7:4, the right pixel's in bits 3:0 (30_encoding.md R102,
43_row_packer.md R181). -/
def packedByte (left right : BitVec 4) : Byte := left ++ right

/-- The packed bytes of a row, two pixels a byte from the left; a trailing single pixel has low nibble 0
(43_row_packer.md R180, R181, R182). -/
def packPairs (pal : Palette) : List Color24 → List Byte
  | left :: right :: rest => packedByte (nearestIndex pal left) (nearestIndex pal right) :: packPairs pal rest
  | [last] => [packedByte (nearestIndex pal last) 0]
  | [] => []

/-- `packRow(px, w)`, `w` the number of pixels: the packed bytes, then zeros up to `rowBytes(w)`
(43_row_packer.md R180, R183). -/
def packRow (pal : Palette) (px : List Color24) : List Byte :=
  packPairs pal px ++ List.replicate (rowBytes px.length - (packPairs pal px).length) 0

/-- `PACK_ROW` (43_row_packer.md R186): `UninitError` unless the InfoHeader is loaded, then `GeometryError` on a
negative width, then the row read whole, packed and appended. -/
def execPackRow (s : State) : Result :=
  needInfoHeader s <|
    if widthOf s < 0 then .next (raise .geometryError s)
    else
      let w := (widthOf s).toNat
      inRead (inRowBytes w) s fun b t => outWrite (packRow t.pal (pixelsOf w b)) t

end Sys2Proof.Machine
end

