-- ==== Sys2Proof/Machine/SystemCommand.lean ====
section
/-! DEFINITION. The one system command, `CLR` (44_system_and_sequences.md R191, R197). -/

namespace Sys2Proof.Machine

/-- `CLR`: the reset state, also while halted (44_system_and_sequences.md R191, 70_reset_and_hazards.md R231). -/
def execClr (s : State) : Result := .next (clear s)

end Sys2Proof.Machine
end

