-- ==== Sys2Proof/Machine/Dispatch.lean ====
section
/-! DEFINITION. The dispatch of a decoded command to its meaning, one arm per constructor (30_encoding.md R92). -/

namespace Sys2Proof.Machine

def exec (i : Instr) (s : State) : Host.Outcome State Fault Refusal :=
  match i with
  | .rdFh => Sys2Proof.Machine.execRdFh s
  | .rdIh => Sys2Proof.Machine.execRdIh s
  | .chkSig => Sys2Proof.Machine.execChkSig s
  | .chkBpp => Sys2Proof.Machine.execChkBpp s
  | .hdrCvt => Sys2Proof.Machine.execHdrCvt s
  | .wrFh => Sys2Proof.Machine.execWrFh s
  | .wrIh => Sys2Proof.Machine.execWrIh s
  | .wrPal => Sys2Proof.Machine.execWrPal s
  | .packRow => Sys2Proof.Machine.execPackRow s
  | .quant blue green red => Sys2Proof.Machine.execQuant blue green red s
  | .clr => Sys2Proof.Machine.execClr s

end Sys2Proof.Machine
end

