-- ==== Sys2Proof/Machine/Sequencer.lean ====
section
/-! DEFINITION. The sequencer: what BMPQ does with a command word (44_system_and_sequences.md R190), with a host
event, and with the queue of host events (10_state.md R20, R43). -/

namespace Sys2Proof.Machine

/-- `step(w)` of the spec, its four cases in its order: `CLR` always, nothing while halted, `IllegalCommand` on an
illegal word, else the command's own rule (44_system_and_sequences.md R190). -/
def present (w : Word) (s : State) : Result :=
  match decode w with
  | .ok .clr => exec .clr s
  | .ok i => if halted s then .next s else exec i s
  | .error _ => if halted s then .next s else .next (raise .illegalCommand s)

/-- What one host event does (10_state.md R43): a command word is dispatched; the hardware reset has the effect of
`CLR` (70_reset_and_hazards.md R230, R231). -/
def serve (e : HostEvent) (s : State) : Result :=
  match e with
  | .command w => present w s
  | .hardwareReset => .next (clear s)

/-- The next host event is taken from the queue and served to completion; with none, BMPQ "is idle and keeps all its
state" (10_state.md R20, 60_exceptions.md R220). DESIGN CHOICE (notes/assumptions/1.md). Safe. -/
def serveNext (s : State) : Result :=
  match s.pending with
  | [] => .next s
  | e :: later => serve e (s.withPending later)

/-- The host presents the word that the table's bits `w` of `nbits` bits stand for, before all events it has already
queued (notes/assumptions/2.md). -/
def presentFirst (nbits w : Nat) (s : State) : State :=
  s.withPending (.command (BitVec.ofNat 32 (w % 2 ^ nbits)) :: s.pending)

end Sys2Proof.Machine
end

