-- ==== Sys2Proof/Machine/Step.lean ====
section
/-! DEFINITION. One step of the machine: the next host event, served to completion. -/

namespace Sys2Proof.Machine

/-- One step: the next host event (10_state.md R20, 44_system_and_sequences.md R190). -/
def step (s : State) : Host.Outcome State Fault Refusal := serveNext s

/-- `s` with the instruction of the table's bits `w` as the next command the host presents: BMPQ fetches nothing, so
the place where a step takes its instruction is the head of `pending` (10_state.md R30; notes/assumptions/2.md). -/
def State.withFetchWord (s : State) (nbits w : Nat) : State := presentFirst nbits w s

end Sys2Proof.Machine
end

