-- ==== Sys2Proof/Machine/Ports.lean ====
section
/-! DEFINITION. The register read port (10_state.md R37, R43, R44): a function of the state, so that a read has no side
effect and is allowed in every state, halted or not. -/

namespace Sys2Proof.Machine

/-- A header register as the host reads it: 0 while its valid flag is 0 (10_state.md R37; notes/assumptions/8.md). -/
def ifValid (valid : Bool) {n : Nat} (v : BitVec n) : BitVec 64 := if valid then v.setWidth 64 else 0

/-- The content of register number `n`, zero-extended to 64 bits; numbers 20 and above read 0 (10_state.md R43, R44). -/
def readPort (n : Nat) (s : State) : BitVec 64 :=
  match n with
  | 0 => ifValid s.fhV s.fh.signature
  | 1 => ifValid s.fhV s.fh.fileSize
  | 2 => ifValid s.fhV s.fh.reserved1
  | 3 => ifValid s.fhV s.fh.reserved2
  | 4 => ifValid s.fhV s.fh.pixelDataOffset
  | 5 => ifValid s.ihV s.ih.headerSize
  | 6 => ifValid s.ihV s.ih.width
  | 7 => ifValid s.ihV s.ih.height
  | 8 => ifValid s.ihV s.ih.planes
  | 9 => ifValid s.ihV s.ih.bitsPerPixel
  | 10 => ifValid s.ihV s.ih.compression
  | 11 => ifValid s.ihV s.ih.imageSize
  | 12 => ifValid s.ihV s.ih.xPelsPerMeter
  | 13 => ifValid s.ihV s.ih.yPelsPerMeter
  | 14 => ifValid s.ihV s.ih.colorsUsed
  | 15 => ifValid s.ihV s.ih.colorsImportant
  | 16 => (statusWord s).setWidth 64
  | 17 => s.idx.setWidth 64
  | 18 => s.icur
  | 19 => s.ocur
  | _ => 0

end Sys2Proof.Machine
end

