-- ==== Sys2Proof/Machine/Sequences.lean ====
section
/-! DEFINITION. The two host sequences, `CONVERT` and `INSPECT` (30_encoding.md R106, 44_system_and_sequences.md R193,
R194): the order in which a host presents commands and what it reads between them. They are no commands of BMPQ; what
the host does with files and text is out of scope (00_scope.md R5; notes/assumptions/11.md). -/

namespace Sys2Proof.Machine

/-- The answer of one command, handed to what comes next. -/
def andThen (r : Result) (rest : State → Result) : Result :=
  match r with
  | .next t => rest t
  | .fault e => .fault e
  | .refused e => .refused e

/-- The host presents the words one after another, each when the one before has completed (10_state.md R43). -/
def presentAll : List Word → State → Result
  | [], s => .next s
  | w :: later, s => andThen (present w s) (presentAll later)

/-- "host: bind the input bytes as IN": the next input sequence to be supplied (44_system_and_sequences.md R193). -/
def bindInput (file : List Byte) (s : State) : State := { s with supply := file :: s.supply }

/-- "host: read ERR", from `STATUS` bits 3:0 (10_state.md R25). -/
def hostReadErr (s : State) : BitVec 4 := (readPort 16 s).extractLsb' 0 4

/-- "host: read x[n]" of a 32-bit register, as the signed number (44_system_and_sequences.md R193, R194). -/
def hostReadSigned (n : Nat) (s : State) : Int := signed32 ((readPort n s).setWidth 32)

/-- CONVERT lines 3 to 7: `CLR`, `RD_FH`, `CHK_SIG`, `RD_IH`, `CHK_BPP` (44_system_and_sequences.md R193). -/
def convertReadWords : List Word := [0x0F000000, 0x01000000, 0x03000000, 0x02000000, 0x04000000]

/-- CONVERT lines 10 to 13: `HDR_CVT`, `WR_FH`, `WR_IH`, `WR_PAL` (44_system_and_sequences.md R193). -/
def convertWriteWords : List Word := [0x05000000, 0x06000000, 0x07000000, 0x08000000]

/-- CONVERT line 15: `PACK_ROW` (44_system_and_sequences.md R193). -/
def packRowWord : Word := 0x09000000

/-- CONVERT line 14: `n <- signed32(x[height])` if `ERR = 0`, else 0 (44_system_and_sequences.md R193). -/
def rowCount (s : State) : Nat := if hostReadErr s = 0 then (hostReadSigned 7 s).toNat else 0

/-- `CONVERT` (44_system_and_sequences.md R193), from binding the input to the last `PACK_ROW`; the host stops at
line 8 when `ERR` is not 0. -/
def convert (file : List Byte) (s : State) : Result :=
  andThen (presentAll convertReadWords (bindInput file s)) fun t =>
    if hostReadErr t ≠ 0 then .next t
    else andThen (presentAll convertWriteWords t) fun u => presentAll (List.replicate (rowCount u) packRowWord) u

/-- INSPECT lines 3 to 6: `CLR`, `RD_FH`, `CHK_SIG`, `RD_IH` (44_system_and_sequences.md R194). -/
def inspectWords : List Word := [0x0F000000, 0x01000000, 0x03000000, 0x02000000]

/-- The commands of `INSPECT` (44_system_and_sequences.md R194). -/
def inspect (file : List Byte) (s : State) : Result := presentAll inspectWords (bindInput file s)

/-- The plain data the Inspector returns (44_system_and_sequences.md R194). -/
structure InspectReport where
  width : Int
  height : Int
  bitsPerPixel : BitVec 16
  deriving DecidableEq, Repr

/-- INSPECT lines 7 and 8: nothing if `ERR` is not 0, else width and height as signed numbers and the bit depth
(44_system_and_sequences.md R194). -/
def inspectReport (s : State) : Option InspectReport :=
  if hostReadErr s ≠ 0 then none
  else some ⟨hostReadSigned 6 s, hostReadSigned 7 s, (readPort 9 s).setWidth 16⟩

end Sys2Proof.Machine
end

