-- ==== Sys2Proof/Safety.lean ====
section
/-! DEFINITION. The terms claims use: the canonical form of the streams, the invariant of the machine, a safe run, and
the value and the parts of a byte sequence. -/

namespace Sys2Proof.Machine

/-- The canonical form of the two streams: `OCUR = length(OUT)` always, and no more of `IN` is consumed than there is
(10_state.md R29). -/
abbrev Memory.wf (s : State) : Prop := s.ocur.toNat = s.out.length ∧ s.icur.toNat ≤ s.input.length

/-- Every input of this and the coming runs is shorter than 2^64 bytes (10_state.md R29). -/
abbrev InputsBounded (s : State) : Prop :=
  s.input.length < 2 ^ 64 ∧ ∀ b ∈ s.supply, b.length < 2 ^ 64

/-- `ERR` holds a code BMPQ can write: 0 or 2 to 7, never 1 and never 8 to 15 (60_exceptions.md R200, R201). -/
abbrev ErrLegal (s : State) : Prop := s.err ≠ 1 ∧ s.err.toNat ≤ 7

/-- A header whose valid flag is 0 has registers 0 (10_state.md R36, R37). -/
abbrev InvalidHeadersZero (s : State) : Prop :=
  (s.fhV = false → s.fh = FileHeader.zero) ∧ (s.ihV = false → s.ih = InfoHeader.zero)

/-- The invariant of the machine: what every state of a run of the spec meets. -/
abbrev State.Inv (s : State) : Prop :=
  Memory.wf s ∧ InputsBounded s ∧ ErrLegal s ∧ InvalidHeadersZero s ∧ s.pal.Legal

/-- A step is safe when it answers a next state: no fault and no refusal. -/
def Safe (s : State) : Prop := ∃ t, step s = .next t

/-- A run of `k` steps is safe when it comes to no fault and no refusal. -/
def SafeRun (k : Nat) (s : State) : Prop := ∃ t, Sys2Proof.core.run k s = .next t

/-- The unsigned value of a byte sequence, the first byte least significant (20_memory.md R64). -/
def leValue : List Byte → Nat
  | [] => 0
  | b :: later => b.toNat + 256 * leValue later

/-- `n` bytes of a byte sequence from byte number `k` on. -/
def slice (b : List Byte) (k n : Nat) : List Byte := (b.drop k).take n

end Sys2Proof.Machine
end

