-- ==== Sys2Proof/Certificates/Slice0/Obligations.lean ====
section
/-! DEFINITION. The statements about the model, one `def Obligations.<Name> : Prop` each. -/

open Sys2Proof Sys2Proof.Machine

/-! ## Encoding -/

/-- A word of each unit's commands, written out from 30_encoding.md R92, decodes to its command, and two illegal words
are refused by name (R95). -/
def Obligations.TableWordsDecode : Prop :=
  decode 0b00000001000000000000000000000000 = .ok .rdFh ∧
  decode 0b00000101000000000000000000000000 = .ok .hdrCvt ∧
  decode 0b00001000000000000000000000000000 = .ok .wrPal ∧
  decode 0b00001001000000000000000000000000 = .ok .packRow ∧
  decode 0b00001010000000001000000011111111 = .ok (.quant 255 128 0) ∧
  decode 0b00001111000000000000000000000000 = .ok .clr ∧
  decode 0b00001111000000000000000000000001 = .error (.immediateNotZero 0x0F 1) ∧
  decode 0b00000000000000000000000000000000 = .error (.unassignedOpcode 0)

/-- Decoding of every word, by arithmetic on its value (30_encoding.md R93, R94): opcode 0x0A is `QUANT` with blue,
green, red from bit 0 up, a `CMD0` opcode with immediate 0 is its command, and every other word is illegal. -/
def Obligations.DecodingFollowsTheOpcodeMap : Prop :=
  ∀ w : Word,
    (w.toNat / 2 ^ 24 = 0x0A →
      ∃ blue green red : Byte, decode w = .ok (.quant blue green red) ∧
        w.toNat % 2 ^ 24 = blue.toNat + 256 * green.toNat + 65536 * red.toNat) ∧
    (w.toNat = 0x01000000 → decode w = .ok .rdFh) ∧
    (w.toNat = 0x02000000 → decode w = .ok .rdIh) ∧
    (w.toNat = 0x03000000 → decode w = .ok .chkSig) ∧
    (w.toNat = 0x04000000 → decode w = .ok .chkBpp) ∧
    (w.toNat = 0x05000000 → decode w = .ok .hdrCvt) ∧
    (w.toNat = 0x06000000 → decode w = .ok .wrFh) ∧
    (w.toNat = 0x07000000 → decode w = .ok .wrIh) ∧
    (w.toNat = 0x08000000 → decode w = .ok .wrPal) ∧
    (w.toNat = 0x09000000 → decode w = .ok .packRow) ∧
    (w.toNat = 0x0F000000 → decode w = .ok .clr) ∧
    (w.toNat / 2 ^ 24 ≠ 0x0A →
      ¬ (w.toNat % 2 ^ 24 = 0 ∧ (1 ≤ w.toNat / 2 ^ 24 ∧ w.toNat / 2 ^ 24 ≤ 9 ∨ w.toNat / 2 ^ 24 = 0x0F)) →
      ∃ e, decode w = .error e)

/-- Decode of encode is the identity on every well-formed command, with every pixel `QUANT` admits. -/
def Obligations.DecodeOfEncodeIsTheInstruction : Prop :=
  ∀ i : Instr, i.wellFormed = true → decode (encode i) = .ok i

/-- No two words decode to one command: "no encoding that executes as another command" (30_encoding.md R96). -/
def Obligations.EncodeOfDecodeIsTheWord : Prop :=
  ∀ (w : Word) (i : Instr), decode w = .ok i → encode i = w

/-- A word that fails either well-formedness check is illegal and only such a word is; presented it raises
`IllegalCommand`, code 7, while `ERR = 0`, changing nothing else, and is ignored while `ERR` is not 0
(30_encoding.md R95, 60_exceptions.md R207). -/
def Obligations.IllegalWordsRaiseIllegalCommand : Prop :=
  ∀ (w : Word) (s : State) (later : List HostEvent), s.pending = .command w :: later →
    ((∃ e, decode w = .error e) ↔ wordLegal w = false) ∧
    (wordLegal w = true ↔ w.toNat / 2 ^ 24 = 0x0A ∨
      w.toNat % 2 ^ 24 = 0 ∧ (1 ≤ w.toNat / 2 ^ 24 ∧ w.toNat / 2 ^ 24 ≤ 9 ∨ w.toNat / 2 ^ 24 = 0x0F)) ∧
    (wordLegal w = false → s.err = 0 → step s = .next { s with pending := later, err := 7 }) ∧
    (wordLegal w = false → s.err ≠ 0 → step s = .next { s with pending := later })

/-! ## Dispatch, the halted state, reset -/

/-- One step on the next command word the host presents, the four cases of 44_system_and_sequences.md R190. -/
def Obligations.StepRunsTheDecodedCommand : Prop :=
  ∀ (w : Word) (s : State) (later : List HostEvent), s.pending = .command w :: later →
    (decode w = .ok .clr → step s = exec .clr { s with pending := later }) ∧
    (decode w ≠ .ok .clr → s.err ≠ 0 → step s = .next { s with pending := later }) ∧
    (∀ e, decode w = .error e → s.err = 0 → step s = .next { s with pending := later, err := 7 }) ∧
    (∀ i, decode w = .ok i → s.err = 0 → step s = exec i { s with pending := later })

/-- With no host event outstanding a step changes nothing: the model's choice (notes/assumptions/1.md), after
"between commands BMPQ is idle and keeps all its state" (60_exceptions.md R220). -/
def Obligations.IdleStepChangesNothing : Prop :=
  ∀ s : State, s.pending = [] → step s = .next s

/-- While `ERR` is not 0 every command word but 0x0F000000 is ignored: the step only takes it from the host, and every
register reads as before (60_exceptions.md R211). -/
def Obligations.HaltedIgnoresEveryWordButClr : Prop :=
  ∀ (w : Word) (s : State) (later : List HostEvent), s.pending = .command w :: later → s.err ≠ 0 →
    w ≠ 0x0F000000 →
    ∃ t, step s = .next t ∧ t = { s with pending := later } ∧ ∀ n, readPort n t = readPort n s

/-- After the hardware reset, and after `CLR`, every piece of state has its reset value; `IN` is the next input the
environment supplies, the palette stays; `CLR` executes in every state, halted or not, and the word 0x0F000001 is not
`CLR`; and `State.reset` has those values (10_state.md R36, 70_reset_and_hazards.md R230, R231,
44_system_and_sequences.md R191). -/
def Obligations.ResetAndClrGiveTheResetValues : Prop :=
  let atReset (input : List Byte) (pal : Palette) (supply : List (List Byte)) (pending : List HostEvent) : State :=
    { fh := ⟨0, 0, 0, 0, 0⟩, ih := ⟨0, 0, 0, 0, 0, 0, 0, 0, 0, 0, 0⟩, fhV := false, ihV := false, err := 0, idx := 0,
      icur := 0, ocur := 0, out := [], input := input, pal := pal, supply := supply, pending := pending }
  (∀ (s : State) (file : List Byte) (files : List (List Byte)), s.supply = file :: files →
    exec .clr s = .next (atReset file s.pal files s.pending)) ∧
  (∀ s : State, ∃ input, exec .clr s = .next (atReset input s.pal s.supply.tail s.pending)) ∧
  (∀ (s : State) (later : List HostEvent), s.pending = .hardwareReset :: later →
    step s = exec .clr { s with pending := later }) ∧
  (∀ (s : State) (later : List HostEvent), s.pending = .command 0x0F000000 :: later →
    step s = exec .clr { s with pending := later }) ∧
  (∀ (s : State) (later : List HostEvent), s.pending = .command 0x0F000001 :: later → s.err ≠ 0 →
    step s = .next { s with pending := later }) ∧
  (∃ input pal supply pending, State.reset = atReset input pal supply pending ∧ pal.Legal)

/-! ## The header field codec -/

/-- `RD_FH`: registers 0 to 4 are the little-endian fields of the 14 bytes at the input cursor, `FH_V` is set and the
cursor moves by 14; with fewer bytes left only `ERR` and `ICUR` change (40_header_codec.md R131). -/
def Obligations.RdFhLoadsTheFileHeader : Prop :=
  ∀ s : State, s.input.length < 2 ^ 64 →
    (∀ (before after : List Byte) (b0 b1 b2 b3 b4 b5 b6 b7 b8 b9 b10 b11 b12 b13 : Byte),
      s.input = before ++ [b0, b1, b2, b3, b4, b5, b6, b7, b8, b9, b10, b11, b12, b13] ++ after →
      s.icur.toNat = before.length →
      exec .rdFh s = .next { s with
        fh := { signature := b1 ++ b0, fileSize := b5 ++ b4 ++ b3 ++ b2, reserved1 := b7 ++ b6, reserved2 := b9 ++ b8,
                pixelDataOffset := b13 ++ b12 ++ b11 ++ b10 }
        fhV := true, icur := s.icur + 14 }) ∧
    (s.input.length < s.icur.toNat + 14 →
      exec .rdFh s = .next { s with err := 4, icur := BitVec.ofNat 64 s.input.length })

/-- `RD_IH`: registers 5 to 15 are the little-endian fields of the 40 bytes at the input cursor, `IH_V` is set and the
cursor moves by 40; with fewer bytes left only `ERR` and `ICUR` change (40_header_codec.md R132). -/
def Obligations.RdIhLoadsTheInfoHeader : Prop :=
  ∀ s : State, s.input.length < 2 ^ 64 →
    (s.icur.toNat + 40 ≤ s.input.length →
      ∃ h : InfoHeader,
        exec .rdIh s = .next { s with ih := h, ihV := true, icur := s.icur + 40 } ∧
        h.headerSize.toNat = leValue (slice s.input (s.icur.toNat + 0) 4) ∧
        h.width.toNat = leValue (slice s.input (s.icur.toNat + 4) 4) ∧
        h.height.toNat = leValue (slice s.input (s.icur.toNat + 8) 4) ∧
        h.planes.toNat = leValue (slice s.input (s.icur.toNat + 12) 2) ∧
        h.bitsPerPixel.toNat = leValue (slice s.input (s.icur.toNat + 14) 2) ∧
        h.compression.toNat = leValue (slice s.input (s.icur.toNat + 16) 4) ∧
        h.imageSize.toNat = leValue (slice s.input (s.icur.toNat + 20) 4) ∧
        h.xPelsPerMeter.toNat = leValue (slice s.input (s.icur.toNat + 24) 4) ∧
        h.yPelsPerMeter.toNat = leValue (slice s.input (s.icur.toNat + 28) 4) ∧
        h.colorsUsed.toNat = leValue (slice s.input (s.icur.toNat + 32) 4) ∧
        h.colorsImportant.toNat = leValue (slice s.input (s.icur.toNat + 36) 4)) ∧
    (s.input.length < s.icur.toNat + 40 →
      exec .rdIh s = .next { s with err := 4, icur := BitVec.ofNat 64 s.input.length })

/-- `WR_FH`: the 14 little-endian bytes of registers 0 to 4 are appended; `UninitError` when `FH_V = 0`
(40_header_codec.md R133). -/
def Obligations.WrFhAppendsTheFileHeader : Prop :=
  ∀ s : State,
    (s.fhV = false → exec .wrFh s = .next { s with err := 6 }) ∧
    (s.fhV = true → s.ocur.toNat = s.out.length → s.out.length + 14 < 2 ^ 64 →
      ∃ v : List Byte,
        exec .wrFh s = .next { s with out := s.out ++ v, ocur := s.ocur + 14 } ∧ v.length = 14 ∧
        leValue (slice v 0 2) = s.fh.signature.toNat ∧
        leValue (slice v 2 4) = s.fh.fileSize.toNat ∧
        leValue (slice v 6 2) = s.fh.reserved1.toNat ∧
        leValue (slice v 8 2) = s.fh.reserved2.toNat ∧
        leValue (slice v 10 4) = s.fh.pixelDataOffset.toNat)

/-- `WR_IH`: the 40 little-endian bytes of registers 5 to 15 are appended; `UninitError` when `IH_V = 0`
(40_header_codec.md R134). -/
def Obligations.WrIhAppendsTheInfoHeader : Prop :=
  ∀ s : State,
    (s.ihV = false → exec .wrIh s = .next { s with err := 6 }) ∧
    (s.ihV = true → s.ocur.toNat = s.out.length → s.out.length + 40 < 2 ^ 64 →
      ∃ v : List Byte,
        exec .wrIh s = .next { s with out := s.out ++ v, ocur := s.ocur + 40 } ∧ v.length = 40 ∧
        leValue (slice v 0 4) = s.ih.headerSize.toNat ∧
        leValue (slice v 4 4) = s.ih.width.toNat ∧
        leValue (slice v 8 4) = s.ih.height.toNat ∧
        leValue (slice v 12 2) = s.ih.planes.toNat ∧
        leValue (slice v 14 2) = s.ih.bitsPerPixel.toNat ∧
        leValue (slice v 16 4) = s.ih.compression.toNat ∧
        leValue (slice v 20 4) = s.ih.imageSize.toNat ∧
        leValue (slice v 24 4) = s.ih.xPelsPerMeter.toNat ∧
        leValue (slice v 28 4) = s.ih.yPelsPerMeter.toNat ∧
        leValue (slice v 32 4) = s.ih.colorsUsed.toNat ∧
        leValue (slice v 36 4) = s.ih.colorsImportant.toNat)

/-- `RD_FH` then `WR_FH` appends exactly the 14 bytes that were read, and `RD_IH` then `WR_IH` exactly the 40
(40_header_codec.md R139). -/
def Obligations.HeaderReadThenWriteKeepsEveryByte : Prop :=
  ∀ s : State, s.input.length < 2 ^ 64 → s.ocur.toNat = s.out.length → s.out.length + 40 < 2 ^ 64 →
    (s.icur.toNat + 14 ≤ s.input.length →
      ∃ t u, exec .rdFh s = .next t ∧ exec .wrFh t = .next u ∧ u.out = s.out ++ slice s.input s.icur.toNat 14) ∧
    (s.icur.toNat + 40 ≤ s.input.length →
      ∃ t u, exec .rdIh s = .next t ∧ exec .wrIh t = .next u ∧ u.out = s.out ++ slice s.input s.icur.toNat 40)

/-- `CHK_SIG`: nothing changes when the FileHeader is loaded and its signature is 0x4D42, that is when its first two
bytes were 0x42 and 0x4D in this order; `SignatureError` on another signature; `UninitError` when it is not loaded
(40_header_codec.md R135). -/
def Obligations.ChkSigChecksTheSignature : Prop :=
  ∀ s : State,
    (s.fhV = true → s.fh.signature = 0x4D42 → exec .chkSig s = .next s) ∧
    (s.fhV = true → s.fh.signature ≠ 0x4D42 → exec .chkSig s = .next { s with err := 2 }) ∧
    (s.fhV = false → exec .chkSig s = .next { s with err := 6 }) ∧
    (∀ b0 b1 : Byte, s.err = 0 → s.fhV = true → s.fh.signature = b1 ++ b0 →
      (exec .chkSig s = .next s ↔ b0 = 0x42 ∧ b1 = 0x4D))

/-- `CHK_BPP`: nothing changes when the InfoHeader is loaded and its depth is 24; `DepthError` on another depth;
`UninitError` when it is not loaded; and `INSPECT` never issues it (40_header_codec.md R136, 60_exceptions.md R203). -/
def Obligations.ChkBppChecksTheDepth : Prop :=
  (∀ s : State,
    (s.ihV = true → s.ih.bitsPerPixel = 24 → exec .chkBpp s = .next s) ∧
    (s.ihV = true → s.ih.bitsPerPixel ≠ 24 → exec .chkBpp s = .next { s with err := 3 }) ∧
    (s.ihV = false → exec .chkBpp s = .next { s with err := 6 })) ∧
  ∀ w ∈ inspectWords, decode w ≠ .ok .chkBpp

/-- `HDR_CVT`: the four registers it rewrites, modulo 2^32, and no other; `UninitError` before `GeometryError`, with no
register changed (40_header_codec.md R138). -/
def Obligations.HdrCvtRewritesFourRegisters : Prop :=
  ∀ s : State,
    (s.fhV = false ∨ s.ihV = false → exec .hdrCvt s = .next { s with err := 6 }) ∧
    (s.fhV = true → s.ihV = true → s.ih.width.toInt < 0 ∨ s.ih.height.toInt < 0 →
      exec .hdrCvt s = .next { s with err := 5 }) ∧
    (∀ W H : Nat, s.fhV = true → s.ihV = true → s.ih.width.toInt = W → s.ih.height.toInt = H →
      ∃ fileSize pixelDataOffset imageSize : BitVec 32,
        exec .hdrCvt s = .next { s with
          fh := { s.fh with fileSize := fileSize, pixelDataOffset := pixelDataOffset }
          ih := { s.ih with bitsPerPixel := 4, imageSize := imageSize } } ∧
        fileSize.toNat = (4 * ((W + 7) / 8) * H + 14 + 40 + 64) % 2 ^ 32 ∧
        pixelDataOffset.toNat = (s.fh.pixelDataOffset.toNat + 64) % 2 ^ 32 ∧
        imageSize.toNat = (4 * ((W + 7) / 8) * H) % 2 ^ 32)

/-! ## The palette table -/

/-- `WR_PAL`: 64 bytes are appended, entry `i` at offset `4 * i` as blue, green, red, 0 (41_palette.md R164). -/
def Obligations.WrPalAppendsThePaletteBlock : Prop :=
  ∀ s : State, s.ocur.toNat = s.out.length → s.out.length + 64 < 2 ^ 64 →
    ∃ v : List Byte,
      exec .wrPal s = .next { s with out := s.out ++ v, ocur := s.ocur + 64 } ∧ v.length = 64 ∧
      ∀ i : Fin 16, slice v (4 * i) 4 = [s.pal[i].blue, s.pal[i].green, s.pal[i].red, 0]

/-- Nothing changes the palette, reset included; and `IN` is fixed from one reset or `CLR` to the next (10_state.md R32,
R33). -/
def Obligations.PaletteAndInputAreFixedInARun : Prop :=
  ∀ s t : State, step s = .next t →
    t.pal = s.pal ∧
    (s.pending.head? ≠ some .hardwareReset → s.pending.head? ≠ some (.command 0x0F000000) →
      t.input = s.input ∧ t.supply = s.supply)

/-! ## The colour quantizer -/

/-- The squared distance is the exact sum of three squares, each difference between -255 and 255, the sum between 0 and
195075, below 2^18 (42_quantizer.md R170). -/
def Obligations.SquaredDistanceIsExactAndBounded : Prop :=
  (∀ a b : Byte, -255 ≤ componentDiff a b ∧ componentDiff a b ≤ 255 ∧ componentDiff a b ^ 2 ≤ 65025) ∧
  ∀ p e : Color24,
    dist2 p e = ((p.blue.toNat : Int) - e.blue.toNat) ^ 2 + ((p.green.toNat : Int) - e.green.toNat) ^ 2
      + ((p.red.toNat : Int) - e.red.toNat) ^ 2 ∧
    0 ≤ dist2 p e ∧ dist2 p e ≤ 195075 ∧ dist2 p e < 2 ^ 18

/-- `QUANT` writes to `IDX` the smallest index whose entry is at the minimum squared distance from the pixel, and changes
nothing else (42_quantizer.md R171, R172, R174). -/
def Obligations.QuantGivesTheLowestNearestIndex : Prop :=
  ∀ (blue green red : Byte) (s : State),
    let d (j : Fin 16) : Int := ((blue.toNat : Int) - s.pal[j].blue.toNat) ^ 2
      + ((green.toNat : Int) - s.pal[j].green.toNat) ^ 2 + ((red.toNat : Int) - s.pal[j].red.toNat) ^ 2
    ∃ k : Fin 16, exec (.quant blue green red) s = .next { s with idx := BitVec.ofNat 4 k } ∧
      (∀ j, d k ≤ d j) ∧ ∀ j, j < k → d k < d j

/-- The result of `QUANT` is that of the source's real-valued Euclidean distance with ties to the lowest index
(42_quantizer.md R173). -/
def Obligations.QuantAgreesWithEuclideanDistance : Prop :=
  ∀ (blue green red : Byte) (s : State) (k : Fin 16),
    let d (j : Fin 16) : ℝ := Real.sqrt (((blue.toNat : ℝ) - s.pal[j].blue.toNat) ^ 2
      + ((green.toNat : ℝ) - s.pal[j].green.toNat) ^ 2 + ((red.toNat : ℝ) - s.pal[j].red.toNat) ^ 2)
    (exec (.quant blue green red) s = .next { s with idx := BitVec.ofNat 4 k } ↔
      (∀ j, d k ≤ d j) ∧ ∀ j, j < k → d k < d j)

/-- For every palette that meets 41_palette.md R162, `QUANT 0, 0, 0` gives index 0 and `QUANT 255, 255, 255` gives index
15 (the source's example, 42_quantizer.md R174). -/
def Obligations.QuantOfBlackIsZeroAndOfWhiteFifteen : Prop :=
  ∀ s : State, s.pal.Legal →
    exec (.quant 0 0 0) s = .next { s with idx := 0 } ∧
    exec (.quant 255 255 255) s = .next { s with idx := 15 }

/-! ## The row packer -/

/-- A packed row has `4 * ceil(w / 8)` bytes (43_row_packer.md R184). -/
def Obligations.PackedRowLength : Prop :=
  ∀ (pal : Palette) (px : List Color24), (packRow pal px).length = 4 * ((px.length + 7) / 8)

/-- The bytes of a packed row: byte `k` is `16 * hi + lo` of pixels `2k` and `2k + 1`; the last pixel of an odd row is
alone in the high nibble; the rest, 0 to 3 bytes, is zero (43_row_packer.md R181, R182, R183). -/
def Obligations.PackedRowContent : Prop :=
  ∀ (pal : Palette) (px : List Color24),
    (∀ (k : Nat) (left right : Color24), px[2 * k]? = some left → px[2 * k + 1]? = some right →
      (packRow pal px)[k]? =
        some (BitVec.ofNat 8 (16 * (nearestIndex pal left).toNat + (nearestIndex pal right).toNat))) ∧
    (∀ (k : Nat) (last : Color24), px.length = 2 * k + 1 → px[2 * k]? = some last →
      (packRow pal px)[k]? = some (BitVec.ofNat 8 (16 * (nearestIndex pal last).toNat))) ∧
    (∀ k : Nat, (px.length + 1) / 2 ≤ k → k < 4 * ((px.length + 7) / 8) → (packRow pal px)[k]? = some 0) ∧
    (px.length + 1) / 2 ≤ (packRow pal px).length ∧ (packRow pal px).length ≤ (px.length + 1) / 2 + 3

/-- `PACK_ROW`: one row of `3 * W + inPad(W)` bytes is read, its pixels are bytes `3c`, `3c + 1`, `3c + 2` as blue,
green, red, and their packed row is appended; the errors in their order of test (43_row_packer.md R185, R186). -/
def Obligations.PackRowReadsAndAppendsOneRow : Prop :=
  ∀ s : State,
    (s.ihV = false → exec .packRow s = .next { s with err := 6 }) ∧
    (s.ihV = true → s.ih.width.toInt < 0 → exec .packRow s = .next { s with err := 5 }) ∧
    (∀ W : Nat, s.ihV = true → s.ih.width.toInt = W → s.input.length < 2 ^ 64 →
      (s.input.length < s.icur.toNat + (3 * W + (4 - 3 * W % 4) % 4) →
        exec .packRow s = .next { s with err := 4, icur := BitVec.ofNat 64 s.input.length }) ∧
      (s.icur.toNat + (3 * W + (4 - 3 * W % 4) % 4) ≤ s.input.length → s.ocur.toNat = s.out.length →
        s.out.length + 4 * ((W + 7) / 8) < 2 ^ 64 →
        ∃ px : List Color24, px.length = W ∧
          (∀ (c : Nat) (p : Color24), px[c]? = some p →
            slice s.input (s.icur.toNat + 3 * c) 3 = [p.blue, p.green, p.red]) ∧
          exec .packRow s = .next { s with
            icur := s.icur + BitVec.ofNat 64 (3 * W + (4 - 3 * W % 4) % 4)
            out := s.out ++ packRow s.pal px
            ocur := s.ocur + BitVec.ofNat 64 (4 * ((W + 7) / 8)) }))

/-! ## Errors -/

/-- Errors are precise: the step in which `ERR` becomes non-zero changes `ERR`, on a short read puts `ICUR` at `ILEN`,
and has no other effect but to take the host's event (60_exceptions.md R210). -/
def Obligations.ErrorsArePrecise : Prop :=
  ∀ s t : State, step s = .next t → s.err = 0 → t.err ≠ 0 →
    (t.err ≠ 4 → t = { s with err := t.err, pending := s.pending.tail }) ∧
    (t.err = 4 → t = { s with err := 4, icur := BitVec.ofNat 64 s.input.length, pending := s.pending.tail })

/-- Which command raises which error, and when (the matrix of 60_exceptions.md R217). -/
def Obligations.OnlyTheListedCommandsRaiseEachError : Prop :=
  ∀ (i : Instr) (s t : State), exec i s = .next t → s.err = 0 → t.err ≠ 0 →
    (t.err = 2 ∧ i = .chkSig ∧ s.fhV = true ∧ s.fh.signature ≠ 0x4D42) ∨
    (t.err = 3 ∧ i = .chkBpp ∧ s.ihV = true ∧ s.ih.bitsPerPixel ≠ 24) ∨
    (t.err = 4 ∧ (i = .rdFh ∧ s.input.length < s.icur.toNat + 14 ∨
      i = .rdIh ∧ s.input.length < s.icur.toNat + 40 ∨
      i = .packRow ∧ s.ihV = true ∧ 0 ≤ s.ih.width.toInt ∧
        s.input.length < s.icur.toNat + inRowBytes s.ih.width.toNat)) ∨
    (t.err = 5 ∧ (i = .hdrCvt ∧ s.fhV = true ∧ s.ihV = true ∧ (s.ih.width.toInt < 0 ∨ s.ih.height.toInt < 0) ∨
      i = .packRow ∧ s.ihV = true ∧ s.ih.width.toInt < 0)) ∨
    (t.err = 6 ∧ ((i = .chkSig ∨ i = .wrFh) ∧ s.fhV = false ∨
      (i = .chkBpp ∨ i = .wrIh ∨ i = .packRow) ∧ s.ihV = false ∨
      i = .hdrCvt ∧ (s.fhV = false ∨ s.ihV = false)))

/-- `ERR` is sticky: once non-zero it keeps its value but for `CLR` and the hardware reset, and these return all state to
the reset values, `IN` to the next input the environment supplies where it supplies one, the palette unchanged
(60_exceptions.md R213, 10_state.md R36). -/
def Obligations.OnlyClrAndResetClearErr : Prop :=
  ∀ s t : State, step s = .next t → s.err ≠ 0 →
    (t.err = s.err ∨ s.pending.head? = some .hardwareReset ∨ s.pending.head? = some (.command 0x0F000000)) ∧
    (s.pending.head? = some .hardwareReset ∨ s.pending.head? = some (.command 0x0F000000) →
      ∃ input, (∀ (file : List Byte) (files : List (List Byte)), s.supply = file :: files → input = file) ∧ t =
        { fh := ⟨0, 0, 0, 0, 0⟩, ih := ⟨0, 0, 0, 0, 0, 0, 0, 0, 0, 0, 0⟩, fhV := false, ihV := false, err := 0, idx := 0,
          icur := 0, ocur := 0, out := [], input := input, pal := s.pal, supply := s.supply.tail,
          pending := s.pending.tail })

/-! ## Frames and whole-machine rules -/

/-- What the commands that store nothing leave unchanged: a check changes at most `ERR`; `QUANT` only `IDX`; `RD_FH` only
registers 0 to 4, `FH_V`, `ICUR`, `ERR`; `RD_IH` only registers 5 to 15, `IH_V`, `ICUR`, `ERR`; `HDR_CVT` only its four
registers and `ERR`. Every byte of `OUT` and of `IN` reads as before. -/
def Obligations.FrameOfCommandsThatStoreNothing : Prop :=
  ∀ (i : Instr) (s t : State), exec i s = .next t →
    (i = .chkSig ∨ i = .chkBpp → t = { s with err := t.err }) ∧
    (∀ blue green red, i = .quant blue green red → t = { s with idx := t.idx }) ∧
    (i = .rdFh → t = { s with fh := t.fh, fhV := t.fhV, icur := t.icur, err := t.err }) ∧
    (i = .rdIh → t = { s with ih := t.ih, ihV := t.ihV, icur := t.icur, err := t.err }) ∧
    (i = .hdrCvt → t = { s with
      fh := { s.fh with fileSize := t.fh.fileSize, pixelDataOffset := t.fh.pixelDataOffset }
      ih := { s.ih with bitsPerPixel := t.ih.bitsPerPixel, imageSize := t.ih.imageSize }
      err := t.err }) ∧
    (i = .chkSig ∨ i = .chkBpp ∨ i = .rdFh ∨ i = .rdIh ∨ i = .hdrCvt ∨ (∃ b g r, i = .quant b g r) →
      (∀ k : Nat, t.out[k]? = s.out[k]?) ∧ ∀ k : Nat, t.input[k]? = s.input[k]?)

/-- What the commands that store leave unchanged: no header register, valid flag, `IDX`, palette or input; `WR_FH`,
`WR_IH`, `WR_PAL` no input cursor; and every byte of `OUT` outside the stored bytes reads as before, the stored bytes
being the command's 14, 40, 64 or `rowBytes(W)` bytes from the output cursor on. -/
def Obligations.FrameOfCommandsThatStore : Prop :=
  ∀ (i : Instr) (s t : State) (n : Nat), exec i s = .next t → s.ocur.toNat = s.out.length →
    i = .wrFh ∧ n = 14 ∨ i = .wrIh ∧ n = 40 ∨ i = .wrPal ∧ n = 64 ∨ i = .packRow ∧ n = rowBytes s.ih.width.toNat →
    t = { s with out := t.out, ocur := t.ocur, icur := t.icur, err := t.err } ∧
    (i ≠ .packRow → t.icur = s.icur) ∧
    ∀ a : Nat, a < s.ocur.toNat ∨ s.ocur.toNat + n ≤ a → t.out[a]? = s.out[a]?

/-- The bytes each command moves when it raises no error, and that a command that raises one appends nothing
(the table of 20_memory.md R67). -/
def Obligations.BytesEachCommandMoves : Prop :=
  ∀ (i : Instr) (s t : State) (reads writes : Nat), exec i s = .next t → s.err = 0 →
    i = .rdFh ∧ reads = 14 ∧ writes = 0 ∨ i = .rdIh ∧ reads = 40 ∧ writes = 0 ∨
      (i = .chkSig ∨ i = .chkBpp ∨ i = .hdrCvt ∨ ∃ b g r, i = .quant b g r) ∧ reads = 0 ∧ writes = 0 ∨
      i = .wrFh ∧ reads = 0 ∧ writes = 14 ∨ i = .wrIh ∧ reads = 0 ∧ writes = 40 ∨
      i = .wrPal ∧ reads = 0 ∧ writes = 64 ∨
      i = .packRow ∧ reads = inRowBytes s.ih.width.toNat ∧ writes = rowBytes s.ih.width.toNat →
    (t.err = 0 → t.icur.toNat = s.icur.toNat + reads ∧ t.out.length = s.out.length + writes) ∧
    (t.err ≠ 0 → t.out = s.out)

/-- Who writes the header registers, the valid flags and `IDX` (10_state.md R23, R24, R26, R27): in any step whose event
is no `CLR` and no hardware reset a valid flag once set stays set, registers 0 to 4 change only by `RD_FH` and `HDR_CVT`,
registers 5 to 15 only by `RD_IH` and `HDR_CVT`, and `IDX` only by `QUANT`. -/
def Obligations.WritersOfRegistersAndFlags : Prop :=
  ∀ s t : State, step s = .next t → s.pending.head? ≠ some .hardwareReset →
    s.pending.head? ≠ some (.command 0x0F000000) →
    (s.fhV = true → t.fhV = true) ∧ (s.ihV = true → t.ihV = true) ∧
    (t.fh ≠ s.fh → s.pending.head? = some (.command 0x01000000) ∨ s.pending.head? = some (.command 0x05000000)) ∧
    (t.ih ≠ s.ih → s.pending.head? = some (.command 0x02000000) ∨ s.pending.head? = some (.command 0x05000000)) ∧
    (t.fhV ≠ s.fhV → s.pending.head? = some (.command 0x01000000)) ∧
    (t.ihV ≠ s.ihV → s.pending.head? = some (.command 0x02000000)) ∧
    (t.idx ≠ s.idx → ∃ w : Word, s.pending.head? = some (.command w) ∧ w.toNat / 2 ^ 24 = 0x0A)

/-- `OUT` only grows: from one reset or `CLR` to the next a step appends bytes and changes none (10_state.md R31). -/
def Obligations.OutputOnlyGrows : Prop :=
  ∀ s t : State, step s = .next t →
    (s.pending.head? ≠ some .hardwareReset → s.pending.head? ≠ some (.command 0x0F000000) →
      ∃ v : List Byte, t.out = s.out ++ v) ∧
    State.reset.out = []

/-- The register read port: the numbers of 10_state.md R44, the fields of `STATUS` (R25), 0 for numbers 20 and above. That
the registers of an invalid header read 0 whatever they hold, in states that no run reaches too, is the model's choice
(notes/assumptions/8.md) after "A header field register whose valid flag is 0 reads as 0 to the host" (R37). -/
def Obligations.ReadPortGivesTheNumberedRegisters : Prop :=
  ∀ s : State,
    (readPort 16 s).toNat = s.err.toNat + 16 * s.fhV.toNat + 32 * s.ihV.toNat ∧
    (readPort 17 s).toNat = s.idx.toNat ∧ readPort 18 s = s.icur ∧ readPort 19 s = s.ocur ∧
    (∀ n, 20 ≤ n → readPort n s = 0) ∧
    (s.fhV = false → ∀ n, n ≤ 4 → readPort n s = 0) ∧
    (s.ihV = false → ∀ n, 5 ≤ n → n ≤ 15 → readPort n s = 0) ∧
    (s.fhV = true → [0, 1, 2, 3, 4].map (fun n => (readPort n s).toNat) =
      [s.fh.signature.toNat, s.fh.fileSize.toNat, s.fh.reserved1.toNat, s.fh.reserved2.toNat,
        s.fh.pixelDataOffset.toNat]) ∧
    (s.ihV = true → [5, 6, 7, 8, 9, 10, 11, 12, 13, 14, 15].map (fun n => (readPort n s).toNat) =
      [s.ih.headerSize.toNat, s.ih.width.toNat, s.ih.height.toNat, s.ih.planes.toNat, s.ih.bitsPerPixel.toNat,
        s.ih.compression.toNat, s.ih.imageSize.toNat, s.ih.xPelsPerMeter.toNat, s.ih.yPelsPerMeter.toNat,
        s.ih.colorsUsed.toNat, s.ih.colorsImportant.toNat])

/-! ## Invariants -/

/-- The invariant holds at reset. -/
def Obligations.InvariantHoldsAtReset : Prop := State.reset.Inv

/-- Every step keeps the invariant: `OCUR = length(OUT)`, `ICUR` at most `ILEN`, inputs shorter than 2^64 bytes, `ERR` a
code BMPQ writes, the registers of an invalid header 0, the palette legal. -/
def Obligations.StepKeepsTheInvariant : Prop :=
  ∀ s t : State, s.Inv → step s = .next t → t.Inv

/-- "The step is a total function of the word and the state" (44_system_and_sequences.md R190), within the limits of the
model: from every state that meets the invariant a step answers a next state while `OUT` is more than 2^30 bytes below the
2^64 bytes of the stream limit; it refuses only an output that would reach that limit (notes/assumptions/7.md); and it
never faults, whatever the length of `OUT` (notes/assumptions/6.md). That every command ends rests on an environment that
answers every read and takes every byte (notes/assumptions/9.md). -/
def Obligations.StepIsTotalAndNeverFaults : Prop :=
  ∀ s : State, s.Inv →
    (s.out.length + 2 ^ 30 < 2 ^ 64 → ∃ t, step s = .next t) ∧
    (∀ r, step s = .refused r → r = .outputTooLong ∧ 2 ^ 64 ≤ s.out.length + 2 ^ 30) ∧
    ∀ r, step s ≠ .fault r

/-! ## The host sequences -/

/-- `CONVERT` of a well-formed 24-bit input: the end state's `ERR`, the length of `OUT`, and every byte of it
(44_system_and_sequences.md R196 items 1 to 6). -/
def Obligations.ConvertWritesTheConvertedBitmap : Prop :=
  ∀ (s : State) (file : List Byte) (W H : Nat), file.length < 2 ^ 64 →
    leValue (slice file 0 2) = 0x4D42 → leValue (slice file 28 2) = 24 →
    leValue (slice file 18 4) = W → W < 2 ^ 31 → leValue (slice file 22 4) = H → H < 2 ^ 31 →
    54 + H * inRowBytes W ≤ file.length →
    ∃ t, convert file s = .next t ∧ t.err = 0 ∧ t.out.length = rowBytes W * H + 118 ∧
      slice t.out 0 2 = slice file 0 2 ∧ leValue (slice t.out 2 4) = (rowBytes W * H + 118) % 2 ^ 32 ∧
      slice t.out 6 4 = slice file 6 4 ∧ leValue (slice t.out 10 4) = (leValue (slice file 10 4) + 64) % 2 ^ 32 ∧
      slice t.out 14 14 = slice file 14 14 ∧ leValue (slice t.out 28 2) = 4 ∧
      slice t.out 30 4 = slice file 30 4 ∧ leValue (slice t.out 34 4) = (rowBytes W * H) % 2 ^ 32 ∧
      slice t.out 38 16 = slice file 38 16 ∧
      (∀ i : Fin 16, slice t.out (54 + 4 * i) 4 = [s.pal[i].blue, s.pal[i].green, s.pal[i].red, 0]) ∧
      ∀ k, k < H → slice t.out (118 + k * rowBytes W) (rowBytes W) =
        packRow s.pal (pixelsOf W (slice file (54 + k * inRowBytes W) (inRowBytes W)))

/-- `INSPECT` of what `CONVERT` wrote reports the input's width and height and the depth 4
(44_system_and_sequences.md R196 item 7). -/
def Obligations.InspectAfterConvertReportsTheSameSize : Prop :=
  ∀ (s s' t : State) (file : List Byte) (W H : Nat), file.length < 2 ^ 64 →
    leValue (slice file 0 2) = 0x4D42 → leValue (slice file 28 2) = 24 →
    leValue (slice file 18 4) = W → W < 2 ^ 31 → leValue (slice file 22 4) = H → H < 2 ^ 31 →
    54 + H * inRowBytes W ≤ file.length → convert file s = .next t →
    ∃ u, inspect t.out s' = .next u ∧ inspectReport u = some ⟨W, H, 4⟩

/-- Rejected inputs: with at least 14 bytes that do not begin 0x42 0x4D both sequences end in `SignatureError`; with a
good signature, 54 bytes and a depth other than 24 `CONVERT` ends in `DepthError` and `INSPECT` without an error. `OUT` is
empty in all of them (44_system_and_sequences.md R196). -/
def Obligations.RejectedInputsLeaveNoOutput : Prop :=
  ∀ (s : State) (file : List Byte), file.length < 2 ^ 64 →
    (14 ≤ file.length → leValue (slice file 0 2) ≠ 0x4D42 →
      (∃ t, convert file s = .next t ∧ t.err = 2 ∧ t.out = []) ∧
      ∃ t, inspect file s = .next t ∧ t.err = 2 ∧ t.out = [] ∧ inspectReport t = none) ∧
    (54 ≤ file.length → leValue (slice file 0 2) = 0x4D42 → leValue (slice file 28 2) ≠ 24 →
      (∃ t, convert file s = .next t ∧ t.err = 3 ∧ t.out = []) ∧
      ∃ t, inspect file s = .next t ∧ t.err = 0 ∧ t.out = [])

/-- The errors of `CONVERT` before the first row, in their order of detection (60_exceptions.md R209): fewer than 14
bytes, a wrong signature, fewer than 54 bytes, a wrong depth, a negative width or height; the end state of each, with
`OUT` empty (60_exceptions.md R222). -/
def Obligations.ConvertReportsTheFirstErrorInOrder : Prop :=
  ∀ (s : State) (file : List Byte), file.length < 2 ^ 64 →
    (file.length < 14 → ∃ t, convert file s = .next t ∧ t.err = 4 ∧ t.icur.toNat = file.length ∧ t.out = []) ∧
    (14 ≤ file.length → leValue (slice file 0 2) ≠ 0x4D42 →
      ∃ t, convert file s = .next t ∧ t.err = 2 ∧ t.icur = 14 ∧ t.ihV = false ∧ t.out = []) ∧
    (14 ≤ file.length → leValue (slice file 0 2) = 0x4D42 → file.length < 54 →
      ∃ t, convert file s = .next t ∧ t.err = 4 ∧ t.icur.toNat = file.length ∧ t.ihV = false ∧ t.out = []) ∧
    (54 ≤ file.length → leValue (slice file 0 2) = 0x4D42 → leValue (slice file 28 2) ≠ 24 →
      ∃ t, convert file s = .next t ∧ t.err = 3 ∧ t.icur = 54 ∧ t.out = []) ∧
    (54 ≤ file.length → leValue (slice file 0 2) = 0x4D42 → leValue (slice file 28 2) = 24 →
      2 ^ 31 ≤ leValue (slice file 18 4) ∨ 2 ^ 31 ≤ leValue (slice file 22 4) →
      ∃ t, convert file s = .next t ∧ t.err = 5 ∧ t.icur = 54 ∧ t.out = [])

/-- `CONVERT` of an input that ends within row `k`: `ShortReadError`, with the input consumed, both headers rewritten, the
palette written, and `k` complete rows after them, never a part of a row (60_exceptions.md R222, 43_row_packer.md
R186). -/
def Obligations.ConvertStopsAtTheFirstIncompleteRow : Prop :=
  ∀ (s : State) (file : List Byte) (W H k : Nat), file.length < 2 ^ 64 →
    leValue (slice file 0 2) = 0x4D42 → leValue (slice file 28 2) = 24 →
    leValue (slice file 18 4) = W → W < 2 ^ 31 → leValue (slice file 22 4) = H → H < 2 ^ 31 →
    k < H → 54 + k * inRowBytes W ≤ file.length → file.length < 54 + (k + 1) * inRowBytes W →
    ∃ t, convert file s = .next t ∧ t.err = 4 ∧ t.icur.toNat = file.length ∧
      t.out.length = 118 + k * rowBytes W ∧
      slice t.out 0 2 = slice file 0 2 ∧ leValue (slice t.out 2 4) = (rowBytes W * H + 118) % 2 ^ 32 ∧
      slice t.out 6 4 = slice file 6 4 ∧ leValue (slice t.out 10 4) = (leValue (slice file 10 4) + 64) % 2 ^ 32 ∧
      slice t.out 14 14 = slice file 14 14 ∧ leValue (slice t.out 28 2) = 4 ∧
      slice t.out 30 4 = slice file 30 4 ∧ leValue (slice t.out 34 4) = (rowBytes W * H) % 2 ^ 32 ∧
      slice t.out 38 16 = slice file 38 16 ∧
      (∀ i : Fin 16, slice t.out (54 + 4 * i) 4 = [s.pal[i].blue, s.pal[i].green, s.pal[i].red, 0]) ∧
      ∀ j, j < k → slice t.out (118 + j * rowBytes W) (rowBytes W) =
        packRow s.pal (pixelsOf W (slice file (54 + j * inRowBytes W) (inRowBytes W)))
end

