-- ==== Sys2Proof/Laws/State.lean ====
section
/-! SUPPORT. What each named update of the state does to each field, all true by `rfl`, so that no proof unfolds an
update. -/

namespace Sys2Proof.Machine

variable (s : State)

@[simp] theorem raise_fh (e : BmpError) : (raise e s).fh = s.fh := rfl
@[simp] theorem raise_ih (e : BmpError) : (raise e s).ih = s.ih := rfl
@[simp] theorem raise_fhV (e : BmpError) : (raise e s).fhV = s.fhV := rfl
@[simp] theorem raise_ihV (e : BmpError) : (raise e s).ihV = s.ihV := rfl
@[simp] theorem raise_err (e : BmpError) : (raise e s).err = errorCode e := rfl
@[simp] theorem raise_idx (e : BmpError) : (raise e s).idx = s.idx := rfl
@[simp] theorem raise_icur (e : BmpError) : (raise e s).icur = s.icur := rfl
@[simp] theorem raise_ocur (e : BmpError) : (raise e s).ocur = s.ocur := rfl
@[simp] theorem raise_out (e : BmpError) : (raise e s).out = s.out := rfl
@[simp] theorem raise_input (e : BmpError) : (raise e s).input = s.input := rfl
@[simp] theorem raise_pal (e : BmpError) : (raise e s).pal = s.pal := rfl
@[simp] theorem raise_supply (e : BmpError) : (raise e s).supply = s.supply := rfl
@[simp] theorem raise_pending (e : BmpError) : (raise e s).pending = s.pending := rfl

@[simp] theorem clear_fh : (clear s).fh = FileHeader.zero := rfl
@[simp] theorem clear_ih : (clear s).ih = InfoHeader.zero := rfl
@[simp] theorem clear_fhV : (clear s).fhV = false := rfl
@[simp] theorem clear_ihV : (clear s).ihV = false := rfl
@[simp] theorem clear_err : (clear s).err = 0 := rfl
@[simp] theorem clear_idx : (clear s).idx = 0 := rfl
@[simp] theorem clear_icur : (clear s).icur = 0 := rfl
@[simp] theorem clear_ocur : (clear s).ocur = 0 := rfl
@[simp] theorem clear_out : (clear s).out = [] := rfl
@[simp] theorem clear_input : (clear s).input = nextInput s.supply := rfl
@[simp] theorem clear_pal : (clear s).pal = s.pal := rfl
@[simp] theorem clear_supply : (clear s).supply = s.supply.tail := rfl
@[simp] theorem clear_pending : (clear s).pending = s.pending := rfl

@[simp] theorem consume_fh (n : Nat) : (s.consume n).fh = s.fh := rfl
@[simp] theorem consume_ih (n : Nat) : (s.consume n).ih = s.ih := rfl
@[simp] theorem consume_fhV (n : Nat) : (s.consume n).fhV = s.fhV := rfl
@[simp] theorem consume_ihV (n : Nat) : (s.consume n).ihV = s.ihV := rfl
@[simp] theorem consume_err (n : Nat) : (s.consume n).err = s.err := rfl
@[simp] theorem consume_idx (n : Nat) : (s.consume n).idx = s.idx := rfl
@[simp] theorem consume_icur (n : Nat) : (s.consume n).icur = s.icur + BitVec.ofNat 64 n := rfl
@[simp] theorem consume_ocur (n : Nat) : (s.consume n).ocur = s.ocur := rfl
@[simp] theorem consume_out (n : Nat) : (s.consume n).out = s.out := rfl
@[simp] theorem consume_input (n : Nat) : (s.consume n).input = s.input := rfl
@[simp] theorem consume_pal (n : Nat) : (s.consume n).pal = s.pal := rfl
@[simp] theorem consume_supply (n : Nat) : (s.consume n).supply = s.supply := rfl
@[simp] theorem consume_pending (n : Nat) : (s.consume n).pending = s.pending := rfl

@[simp] theorem exhaust_fh : (s.exhaust).fh = s.fh := rfl
@[simp] theorem exhaust_ih : (s.exhaust).ih = s.ih := rfl
@[simp] theorem exhaust_fhV : (s.exhaust).fhV = s.fhV := rfl
@[simp] theorem exhaust_ihV : (s.exhaust).ihV = s.ihV := rfl
@[simp] theorem exhaust_err : (s.exhaust).err = s.err := rfl
@[simp] theorem exhaust_idx : (s.exhaust).idx = s.idx := rfl
@[simp] theorem exhaust_icur : (s.exhaust).icur = BitVec.ofNat 64 s.input.length := rfl
@[simp] theorem exhaust_ocur : (s.exhaust).ocur = s.ocur := rfl
@[simp] theorem exhaust_out : (s.exhaust).out = s.out := rfl
@[simp] theorem exhaust_input : (s.exhaust).input = s.input := rfl
@[simp] theorem exhaust_pal : (s.exhaust).pal = s.pal := rfl
@[simp] theorem exhaust_supply : (s.exhaust).supply = s.supply := rfl
@[simp] theorem exhaust_pending : (s.exhaust).pending = s.pending := rfl

@[simp] theorem append_fh (v : List Byte) : (s.append v).fh = s.fh := rfl
@[simp] theorem append_ih (v : List Byte) : (s.append v).ih = s.ih := rfl
@[simp] theorem append_fhV (v : List Byte) : (s.append v).fhV = s.fhV := rfl
@[simp] theorem append_ihV (v : List Byte) : (s.append v).ihV = s.ihV := rfl
@[simp] theorem append_err (v : List Byte) : (s.append v).err = s.err := rfl
@[simp] theorem append_idx (v : List Byte) : (s.append v).idx = s.idx := rfl
@[simp] theorem append_icur (v : List Byte) : (s.append v).icur = s.icur := rfl
@[simp] theorem append_ocur (v : List Byte) : (s.append v).ocur = s.ocur + BitVec.ofNat 64 v.length := rfl
@[simp] theorem append_out (v : List Byte) : (s.append v).out = s.out ++ v := rfl
@[simp] theorem append_input (v : List Byte) : (s.append v).input = s.input := rfl
@[simp] theorem append_pal (v : List Byte) : (s.append v).pal = s.pal := rfl
@[simp] theorem append_supply (v : List Byte) : (s.append v).supply = s.supply := rfl
@[simp] theorem append_pending (v : List Byte) : (s.append v).pending = s.pending := rfl

@[simp] theorem loadFh_fh (h : FileHeader) : (s.loadFh h).fh = h := rfl
@[simp] theorem loadFh_ih (h : FileHeader) : (s.loadFh h).ih = s.ih := rfl
@[simp] theorem loadFh_fhV (h : FileHeader) : (s.loadFh h).fhV = true := rfl
@[simp] theorem loadFh_ihV (h : FileHeader) : (s.loadFh h).ihV = s.ihV := rfl
@[simp] theorem loadFh_err (h : FileHeader) : (s.loadFh h).err = s.err := rfl
@[simp] theorem loadFh_idx (h : FileHeader) : (s.loadFh h).idx = s.idx := rfl
@[simp] theorem loadFh_icur (h : FileHeader) : (s.loadFh h).icur = s.icur := rfl
@[simp] theorem loadFh_ocur (h : FileHeader) : (s.loadFh h).ocur = s.ocur := rfl
@[simp] theorem loadFh_out (h : FileHeader) : (s.loadFh h).out = s.out := rfl
@[simp] theorem loadFh_input (h : FileHeader) : (s.loadFh h).input = s.input := rfl
@[simp] theorem loadFh_pal (h : FileHeader) : (s.loadFh h).pal = s.pal := rfl
@[simp] theorem loadFh_supply (h : FileHeader) : (s.loadFh h).supply = s.supply := rfl
@[simp] theorem loadFh_pending (h : FileHeader) : (s.loadFh h).pending = s.pending := rfl

@[simp] theorem loadIh_fh (h : InfoHeader) : (s.loadIh h).fh = s.fh := rfl
@[simp] theorem loadIh_ih (h : InfoHeader) : (s.loadIh h).ih = h := rfl
@[simp] theorem loadIh_fhV (h : InfoHeader) : (s.loadIh h).fhV = s.fhV := rfl
@[simp] theorem loadIh_ihV (h : InfoHeader) : (s.loadIh h).ihV = true := rfl
@[simp] theorem loadIh_err (h : InfoHeader) : (s.loadIh h).err = s.err := rfl
@[simp] theorem loadIh_idx (h : InfoHeader) : (s.loadIh h).idx = s.idx := rfl
@[simp] theorem loadIh_icur (h : InfoHeader) : (s.loadIh h).icur = s.icur := rfl
@[simp] theorem loadIh_ocur (h : InfoHeader) : (s.loadIh h).ocur = s.ocur := rfl
@[simp] theorem loadIh_out (h : InfoHeader) : (s.loadIh h).out = s.out := rfl
@[simp] theorem loadIh_input (h : InfoHeader) : (s.loadIh h).input = s.input := rfl
@[simp] theorem loadIh_pal (h : InfoHeader) : (s.loadIh h).pal = s.pal := rfl
@[simp] theorem loadIh_supply (h : InfoHeader) : (s.loadIh h).supply = s.supply := rfl
@[simp] theorem loadIh_pending (h : InfoHeader) : (s.loadIh h).pending = s.pending := rfl

@[simp] theorem rewriteHeaders_fh (f : FileHeader) (h : InfoHeader) : (s.rewriteHeaders f h).fh = f := rfl
@[simp] theorem rewriteHeaders_ih (f : FileHeader) (h : InfoHeader) : (s.rewriteHeaders f h).ih = h := rfl
@[simp] theorem rewriteHeaders_fhV (f : FileHeader) (h : InfoHeader) : (s.rewriteHeaders f h).fhV = s.fhV := rfl
@[simp] theorem rewriteHeaders_ihV (f : FileHeader) (h : InfoHeader) : (s.rewriteHeaders f h).ihV = s.ihV := rfl
@[simp] theorem rewriteHeaders_err (f : FileHeader) (h : InfoHeader) : (s.rewriteHeaders f h).err = s.err := rfl
@[simp] theorem rewriteHeaders_idx (f : FileHeader) (h : InfoHeader) : (s.rewriteHeaders f h).idx = s.idx := rfl
@[simp] theorem rewriteHeaders_icur (f : FileHeader) (h : InfoHeader) : (s.rewriteHeaders f h).icur = s.icur := rfl
@[simp] theorem rewriteHeaders_ocur (f : FileHeader) (h : InfoHeader) : (s.rewriteHeaders f h).ocur = s.ocur := rfl
@[simp] theorem rewriteHeaders_out (f : FileHeader) (h : InfoHeader) : (s.rewriteHeaders f h).out = s.out := rfl
@[simp] theorem rewriteHeaders_input (f : FileHeader) (h : InfoHeader) : (s.rewriteHeaders f h).input = s.input := rfl
@[simp] theorem rewriteHeaders_pal (f : FileHeader) (h : InfoHeader) : (s.rewriteHeaders f h).pal = s.pal := rfl
@[simp] theorem rewriteHeaders_supply (f : FileHeader) (h : InfoHeader) : (s.rewriteHeaders f h).supply = s.supply := rfl
@[simp] theorem rewriteHeaders_pending (f : FileHeader) (h : InfoHeader) : (s.rewriteHeaders f h).pending = s.pending := rfl

@[simp] theorem setIdx_fh (k : BitVec 4) : (s.setIdx k).fh = s.fh := rfl
@[simp] theorem setIdx_ih (k : BitVec 4) : (s.setIdx k).ih = s.ih := rfl
@[simp] theorem setIdx_fhV (k : BitVec 4) : (s.setIdx k).fhV = s.fhV := rfl
@[simp] theorem setIdx_ihV (k : BitVec 4) : (s.setIdx k).ihV = s.ihV := rfl
@[simp] theorem setIdx_err (k : BitVec 4) : (s.setIdx k).err = s.err := rfl
@[simp] theorem setIdx_idx (k : BitVec 4) : (s.setIdx k).idx = k := rfl
@[simp] theorem setIdx_icur (k : BitVec 4) : (s.setIdx k).icur = s.icur := rfl
@[simp] theorem setIdx_ocur (k : BitVec 4) : (s.setIdx k).ocur = s.ocur := rfl
@[simp] theorem setIdx_out (k : BitVec 4) : (s.setIdx k).out = s.out := rfl
@[simp] theorem setIdx_input (k : BitVec 4) : (s.setIdx k).input = s.input := rfl
@[simp] theorem setIdx_pal (k : BitVec 4) : (s.setIdx k).pal = s.pal := rfl
@[simp] theorem setIdx_supply (k : BitVec 4) : (s.setIdx k).supply = s.supply := rfl
@[simp] theorem setIdx_pending (k : BitVec 4) : (s.setIdx k).pending = s.pending := rfl

@[simp] theorem bindInput_fh (file : List Byte) : (bindInput file s).fh = s.fh := rfl
@[simp] theorem bindInput_ih (file : List Byte) : (bindInput file s).ih = s.ih := rfl
@[simp] theorem bindInput_fhV (file : List Byte) : (bindInput file s).fhV = s.fhV := rfl
@[simp] theorem bindInput_ihV (file : List Byte) : (bindInput file s).ihV = s.ihV := rfl
@[simp] theorem bindInput_err (file : List Byte) : (bindInput file s).err = s.err := rfl
@[simp] theorem bindInput_idx (file : List Byte) : (bindInput file s).idx = s.idx := rfl
@[simp] theorem bindInput_icur (file : List Byte) : (bindInput file s).icur = s.icur := rfl
@[simp] theorem bindInput_ocur (file : List Byte) : (bindInput file s).ocur = s.ocur := rfl
@[simp] theorem bindInput_out (file : List Byte) : (bindInput file s).out = s.out := rfl
@[simp] theorem bindInput_input (file : List Byte) : (bindInput file s).input = s.input := rfl
@[simp] theorem bindInput_pal (file : List Byte) : (bindInput file s).pal = s.pal := rfl
@[simp] theorem bindInput_supply (file : List Byte) : (bindInput file s).supply = file :: s.supply := rfl
@[simp] theorem bindInput_pending (file : List Byte) : (bindInput file s).pending = s.pending := rfl

@[simp] theorem withPending_fh (later : List HostEvent) : (s.withPending later).fh = s.fh := rfl
@[simp] theorem withPending_ih (later : List HostEvent) : (s.withPending later).ih = s.ih := rfl
@[simp] theorem withPending_fhV (later : List HostEvent) : (s.withPending later).fhV = s.fhV := rfl
@[simp] theorem withPending_ihV (later : List HostEvent) : (s.withPending later).ihV = s.ihV := rfl
@[simp] theorem withPending_err (later : List HostEvent) : (s.withPending later).err = s.err := rfl
@[simp] theorem withPending_idx (later : List HostEvent) : (s.withPending later).idx = s.idx := rfl
@[simp] theorem withPending_icur (later : List HostEvent) : (s.withPending later).icur = s.icur := rfl
@[simp] theorem withPending_ocur (later : List HostEvent) : (s.withPending later).ocur = s.ocur := rfl
@[simp] theorem withPending_out (later : List HostEvent) : (s.withPending later).out = s.out := rfl
@[simp] theorem withPending_input (later : List HostEvent) : (s.withPending later).input = s.input := rfl
@[simp] theorem withPending_pal (later : List HostEvent) : (s.withPending later).pal = s.pal := rfl
@[simp] theorem withPending_supply (later : List HostEvent) : (s.withPending later).supply = s.supply := rfl
@[simp] theorem withPending_pending (later : List HostEvent) : (s.withPending later).pending = later := rfl

@[simp] theorem withFetchWord_fh (nbits w : Nat) : (s.withFetchWord nbits w).fh = s.fh := rfl
@[simp] theorem withFetchWord_ih (nbits w : Nat) : (s.withFetchWord nbits w).ih = s.ih := rfl

@[simp] theorem withFetchWord_fhV (nbits w : Nat) : (s.withFetchWord nbits w).fhV = s.fhV := rfl
@[simp] theorem withFetchWord_ihV (nbits w : Nat) : (s.withFetchWord nbits w).ihV = s.ihV := rfl
@[simp] theorem withFetchWord_err (nbits w : Nat) : (s.withFetchWord nbits w).err = s.err := rfl
@[simp] theorem withFetchWord_idx (nbits w : Nat) : (s.withFetchWord nbits w).idx = s.idx := rfl
@[simp] theorem withFetchWord_icur (nbits w : Nat) : (s.withFetchWord nbits w).icur = s.icur := rfl
@[simp] theorem withFetchWord_ocur (nbits w : Nat) : (s.withFetchWord nbits w).ocur = s.ocur := rfl
@[simp] theorem withFetchWord_out (nbits w : Nat) : (s.withFetchWord nbits w).out = s.out := rfl
@[simp] theorem withFetchWord_input (nbits w : Nat) : (s.withFetchWord nbits w).input = s.input := rfl
@[simp] theorem withFetchWord_pal (nbits w : Nat) : (s.withFetchWord nbits w).pal = s.pal := rfl
@[simp] theorem withFetchWord_supply (nbits w : Nat) : (s.withFetchWord nbits w).supply = s.supply := rfl
@[simp] theorem withFetchWord_pending (nbits w : Nat) : (s.withFetchWord nbits w).pending = HostEvent.command (BitVec.ofNat 32 (w % 2 ^ nbits)) :: s.pending := rfl

end Sys2Proof.Machine
end

