-- ==== Sys2Proof/Laws/Ops.lean ====
section
/-! SUPPORT. What each shared operation can do, said once: the stream accesses, the tests of the valid flags, the views
of operands, and the laws of byte sequences that the record layouts rest on. -/

namespace Sys2Proof.Machine

variable {s t : State} {n : Nat} {v : List Byte} {r : Result} {k : List Byte → State → Result}

@[simp] theorem fileHeaderBytes_eq : Config.fileHeaderBytes = 14 := rfl

@[simp] theorem infoHeaderBytes_eq : Config.infoHeaderBytes = 40 := rfl

@[simp] theorem streamLimit_eq : Config.streamLimit = 2 ^ 64 := rfl

/-! ### The stream accesses -/

theorem inRead_of_enough (hl : s.input.length < 2 ^ 64) (he : s.icur.toNat + n ≤ s.input.length) :
    inRead n s k = k (memRead n s) (s.consume n) := by
  unfold inRead
  rw [if_neg (by simpa using hl), if_neg (by omega)]

theorem inRead_of_short (hl : s.input.length < 2 ^ 64) (he : s.input.length < s.icur.toNat + n) :
    inRead n s k = .next (raise .shortReadError s.exhaust) := by
  unfold inRead
  rw [if_neg (by simpa using hl), if_pos (by omega)]

/-- All that `inRead` can do when it answers a next state. -/
theorem inRead_cases (h : inRead n s k = .next t) :
    s.input.length < 2 ^ 64 ∧
      (s.input.length < s.icur.toNat + n ∧ t = raise .shortReadError s.exhaust ∨
        s.icur.toNat + n ≤ s.input.length ∧ k (memRead n s) (s.consume n) = .next t) := by
  unfold inRead at h
  split at h
  · cases h
  · rename_i hl
    simp only [streamLimit_eq, not_le] at hl
    split at h
    · rename_i hs
      injection h with h
      exact ⟨hl, .inl ⟨by omega, h.symm⟩⟩
    · rename_i hs
      exact ⟨hl, .inr ⟨by omega, h⟩⟩

/-- An input access faults only where the rest of the command does. -/
theorem inRead_fault {e : Fault} (h : inRead n s k = .fault e) : k (memRead n s) (s.consume n) = .fault e := by
  unfold inRead at h
  split at h
  · cases h
  · split at h
    · cases h
    · exact h

theorem outWrite_of_wf (hw : s.ocur.toNat = s.out.length) (hl : s.out.length + v.length < 2 ^ 64) :
    outWrite v s = .next (s.append v) := by
  unfold outWrite
  rw [if_neg (by simpa using hw), if_neg (by simpa using hl)]

/-- All that `outWrite` can do when it answers a next state. -/
theorem outWrite_cases (h : outWrite v s = .next t) :
    s.ocur.toNat = s.out.length ∧ s.out.length + v.length < 2 ^ 64 ∧ t = s.append v := by
  unfold outWrite at h
  split at h
  · cases h
  · rename_i hw
    split at h
    · cases h
    · rename_i hl
      injection h with h
      exact ⟨by simpa using hw, by simpa using hl, h.symm⟩

/-- An append faults only where the output cursor is astray. -/
theorem outWrite_fault {e : Fault} (h : outWrite v s = .fault e) : s.ocur.toNat ≠ s.out.length := by
  unfold outWrite at h
  split at h
  · assumption
  · split at h <;> cases h

theorem memRead_eq_slice : memRead n s = slice s.input s.icur.toNat n := rfl

theorem memRead_length (he : s.icur.toNat + n ≤ s.input.length) : (memRead n s).length = n := by
  simp only [memRead, List.length_take, List.length_drop]
  omega

/-! ### The tests of the valid flags -/

theorem needFileHeader_of_valid (h : s.fhV = true) : needFileHeader s r = r := by simp [needFileHeader, h]

theorem needFileHeader_of_invalid (h : s.fhV = false) : needFileHeader s r = .next (raise .uninitError s) := by
  simp [needFileHeader, h]

theorem needInfoHeader_of_valid (h : s.ihV = true) : needInfoHeader s r = r := by simp [needInfoHeader, h]

theorem needInfoHeader_of_invalid (h : s.ihV = false) : needInfoHeader s r = .next (raise .uninitError s) := by
  simp [needInfoHeader, h]

theorem needFileHeader_cases (h : needFileHeader s r = .next t) :
    s.fhV = false ∧ t = raise .uninitError s ∨ s.fhV = true ∧ r = .next t := by
  cases hv : s.fhV
  · rw [needFileHeader_of_invalid hv] at h
    injection h with h
    exact .inl ⟨rfl, h.symm⟩
  · rw [needFileHeader_of_valid hv] at h
    exact .inr ⟨rfl, h⟩

theorem needInfoHeader_cases (h : needInfoHeader s r = .next t) :
    s.ihV = false ∧ t = raise .uninitError s ∨ s.ihV = true ∧ r = .next t := by
  cases hv : s.ihV
  · rw [needInfoHeader_of_invalid hv] at h
    injection h with h
    exact .inl ⟨rfl, h.symm⟩
  · rw [needInfoHeader_of_valid hv] at h
    exact .inr ⟨rfl, h⟩

theorem needFileHeader_fault {e : Fault} (h : needFileHeader s r = .fault e) : r = .fault e := by
  unfold needFileHeader at h
  split at h
  · exact h
  · cases h

theorem needInfoHeader_fault {e : Fault} (h : needInfoHeader s r = .fault e) : r = .fault e := by
  unfold needInfoHeader at h
  split at h
  · exact h
  · cases h

/-! ### Operand views -/

/-- `signed32` is the two's complement value. -/
theorem signed32_eq_toInt (v : BitVec 32) : signed32 v = v.toInt := by
  rw [signed32, BitVec.toInt_eq_toNat_cond]
  have := v.isLt
  split <;> split <;> omega

theorem widthOf_eq (s : State) : widthOf s = s.ih.width.toInt := signed32_eq_toInt _

theorem heightOf_eq (s : State) : heightOf s = s.ih.height.toInt := signed32_eq_toInt _

/-- A non-negative signed view is the unsigned value, below 2^31. -/
theorem toInt_toNat_of_nonneg {v : BitVec 32} (h : 0 ≤ v.toInt) : v.toInt.toNat = v.toNat ∧ v.toNat < 2 ^ 31 := by
  rw [BitVec.toInt_eq_toNat_cond] at *
  have := v.isLt
  split at h <;> omega

theorem rowBytes_le (w : Nat) (h : w < 2 ^ 31) : rowBytes w ≤ 2 ^ 30 := by
  unfold rowBytes
  omega

/-! ### Byte sequences and record layouts -/

@[simp] theorem le16_length (v : BitVec 16) : (le16 v).length = 2 := rfl

@[simp] theorem le32_length (v : BitVec 32) : (le32 v).length = 4 := rfl

@[simp] theorem packFileHeader_length (h : FileHeader) : (packFileHeader h).length = 14 := rfl

@[simp] theorem packInfoHeader_length (h : InfoHeader) : (packInfoHeader h).length = 40 := rfl

@[simp] theorem paletteBlock_length (pal : Palette) : (paletteBlock pal).length = 64 := rfl

theorem leValue_le16 (v : BitVec 16) : leValue (le16 v) = v.toNat := by
  simp only [le16, leValue, BitVec.extractLsb'_toNat]
  have := v.isLt
  omega

theorem leValue_le32 (v : BitVec 32) : leValue (le32 v) = v.toNat := by
  simp only [le32, leValue, BitVec.extractLsb'_toNat]
  have := v.isLt
  omega

/-- The value of a concatenation. -/
theorem toNat_append_eq {m n : Nat} (x : BitVec m) (y : BitVec n) :
    (x ++ y).toNat = x.toNat * 2 ^ n + y.toNat := by
  rw [BitVec.toNat_append, ← Nat.shiftLeft_add_eq_or_of_lt y.isLt, Nat.shiftLeft_eq]

theorem le16_append (b0 b1 : Byte) : le16 (b1 ++ b0) = [b0, b1] := by
  have h0 := b0.isLt
  have h1 := b1.isLt
  simp only [le16, List.cons.injEq, and_true]
  refine ⟨?_, ?_⟩ <;> apply BitVec.eq_of_toNat_eq <;> simp only [BitVec.extractLsb'_toNat, toNat_append_eq] <;> omega

theorem le32_append (b0 b1 b2 b3 : Byte) : le32 (b3 ++ b2 ++ b1 ++ b0) = [b0, b1, b2, b3] := by
  have h0 := b0.isLt
  have h1 := b1.isLt
  have h2 := b2.isLt
  have h3 := b3.isLt
  simp only [le32, List.cons.injEq, and_true]
  refine ⟨?_, ?_, ?_, ?_⟩ <;> apply BitVec.eq_of_toNat_eq <;> simp only [BitVec.extractLsb'_toNat, toNat_append_eq] <;>
    omega

/-- Two bytes of a sequence as a slice. -/
theorem slice_two {b : List Byte} {k : Nat} (h : k + 2 ≤ b.length) : slice b k 2 = [byteAt b k, byteAt b (k + 1)] := by
  rw [slice, List.drop_eq_getElem_cons (by omega), List.drop_eq_getElem_cons (by omega)]
  simp only [List.take_succ_cons, List.take_zero, Option.getD_some, byteAt, List.getD_eq_getElem?_getD, List.getElem?_eq_getElem (show k < b.length by omega),
    List.getElem?_eq_getElem (show k + 1 < b.length by omega)]

/-- Four bytes of a sequence as a slice. -/
theorem slice_four {b : List Byte} {k : Nat} (h : k + 4 ≤ b.length) :
    slice b k 4 = [byteAt b k, byteAt b (k + 1), byteAt b (k + 2), byteAt b (k + 3)] := by
  rw [slice, List.drop_eq_getElem_cons (by omega), List.drop_eq_getElem_cons (by omega),
    List.drop_eq_getElem_cons (by omega), List.drop_eq_getElem_cons (by omega)]
  simp only [List.take_succ_cons, List.take_zero, Option.getD_some, byteAt, List.getD_eq_getElem?_getD, List.getElem?_eq_getElem (show k < b.length by omega),
    List.getElem?_eq_getElem (show k + 1 < b.length by omega), List.getElem?_eq_getElem (show k + 2 < b.length by omega),
    List.getElem?_eq_getElem (show k + 3 < b.length by omega)]

/-- The bytes of a little-endian 16-bit field are those it was read from. -/
theorem le16_le16At {b : List Byte} {k : Nat} (h : k + 2 ≤ b.length) : le16 (le16At b k) = slice b k 2 := by
  rw [le16At, le16_append, slice_two h]

/-- The bytes of a little-endian 32-bit field are those it was read from. -/
theorem le32_le32At {b : List Byte} {k : Nat} (h : k + 4 ≤ b.length) : le32 (le32At b k) = slice b k 4 := by
  rw [le32At, le32_append, slice_four h]

/-- A little-endian 16-bit field has the value of its bytes. -/
theorem le16At_toNat {b : List Byte} {k : Nat} (h : k + 2 ≤ b.length) : (le16At b k).toNat = leValue (slice b k 2) := by
  rw [← leValue_le16, le16_le16At h]

/-- A little-endian 32-bit field has the value of its bytes. -/
theorem le32At_toNat {b : List Byte} {k : Nat} (h : k + 4 ≤ b.length) : (le32At b k).toNat = leValue (slice b k 4) := by
  rw [← leValue_le32, le32_le32At h]

theorem slice_length {b : List Byte} {k n : Nat} (h : k + n ≤ b.length) : (slice b k n).length = n := by
  simp only [slice, List.length_take, List.length_drop]
  omega

/-- A slice of a slice that holds it. -/
theorem slice_slice {b : List Byte} {k n k' n' : Nat} (h : k' + n' ≤ n) :
    slice (slice b k n) k' n' = slice b (k + k') n' := by
  simp only [slice, List.drop_take, List.drop_drop, List.take_take]
  congr 1
  omega

/-- Two slices side by side. -/
theorem slice_append_slice (b : List Byte) (k m n : Nat) : slice b k m ++ slice b (k + m) n = slice b k (m + n) := by
  simp only [slice, List.take_add, List.drop_drop]

end Sys2Proof.Machine
end

