-- ==== Sys2Proof/Laws/Encoding.lean ====
section
/-! SUPPORT. The decoder and the encoder in arithmetic on the value of a word. -/

namespace Sys2Proof

open Machine (toNat_append_eq)

theorem opcodeField_toNat (w : Word) : (opcodeField w).toNat = w.toNat / 2 ^ 24 := by
  have := w.isLt
  simp only [opcodeField, BitVec.extractLsb'_toNat]
  omega

theorem imm24Field_toNat (w : Word) : (imm24Field w).toNat = w.toNat % 2 ^ 24 := by
  simp [imm24Field, BitVec.extractLsb'_toNat]

/-- A word is its opcode and its immediate. -/
theorem fields_append (w : Word) : opcodeField w ++ imm24Field w = w := by
  apply BitVec.eq_of_toNat_eq
  rw [toNat_append_eq, opcodeField_toNat, imm24Field_toNat]
  have := w.isLt
  omega

theorem opcodeField_append (op : Byte) (imm : BitVec 24) : opcodeField (op ++ imm) = op := by
  apply BitVec.eq_of_toNat_eq
  rw [opcodeField_toNat, toNat_append_eq]
  have := imm.isLt
  omega

theorem imm24Field_append (op : Byte) (imm : BitVec 24) : imm24Field (op ++ imm) = imm := by
  apply BitVec.eq_of_toNat_eq
  rw [imm24Field_toNat, toNat_append_eq]
  have := imm.isLt
  omega

/-- The value of an encoded `QUANT`. -/
theorem encode_quant_toNat (blue green red : Byte) :
    (encode (.quant blue green red)).toNat = 0x0A000000 + red.toNat * 65536 + green.toNat * 256 + blue.toNat := by
  simp only [encode, Instr.opcode, Instr.immediate, quantOpcode, toNat_append_eq]
  have := blue.isLt
  have := green.isLt
  have := red.isLt
  have h : BitVec.toNat (0x0A : Byte) = 10 := rfl
  omega

end Sys2Proof
end

