-- ==== Sys2Proof/Laws/Exec.lean ====
section
/-! SUPPORT. What each command can do, said once: if its meaning answers a next state, one of these cases holds; and
that no meaning faults but where the output cursor is astray. -/

namespace Sys2Proof.Machine

variable {s t : State}

/-! ### Where a command goes -/

theorem execRdFh_of_enough (hl : s.input.length < 2 ^ 64) (he : s.icur.toNat + 14 ≤ s.input.length) :
    execRdFh s = .next ((s.consume 14).loadFh (unpackFileHeader (memRead 14 s))) := by
  unfold execRdFh
  rw [fileHeaderBytes_eq, inRead_of_enough hl he]

theorem execRdFh_of_short (hl : s.input.length < 2 ^ 64) (he : s.input.length < s.icur.toNat + 14) :
    execRdFh s = .next (raise .shortReadError s.exhaust) := by
  unfold execRdFh
  rw [fileHeaderBytes_eq, inRead_of_short hl he]

theorem execRdIh_of_enough (hl : s.input.length < 2 ^ 64) (he : s.icur.toNat + 40 ≤ s.input.length) :
    execRdIh s = .next ((s.consume 40).loadIh (unpackInfoHeader (memRead 40 s))) := by
  unfold execRdIh
  rw [infoHeaderBytes_eq, inRead_of_enough hl he]

theorem execRdIh_of_short (hl : s.input.length < 2 ^ 64) (he : s.input.length < s.icur.toNat + 40) :
    execRdIh s = .next (raise .shortReadError s.exhaust) := by
  unfold execRdIh
  rw [infoHeaderBytes_eq, inRead_of_short hl he]

theorem execWrFh_of_valid (hv : s.fhV = true) (hw : s.ocur.toNat = s.out.length) (hl : s.out.length + 14 < 2 ^ 64) :
    execWrFh s = .next (s.append (packFileHeader s.fh)) := by
  unfold execWrFh
  rw [needFileHeader_of_valid hv, outWrite_of_wf hw (by rwa [packFileHeader_length])]

theorem execWrIh_of_valid (hv : s.ihV = true) (hw : s.ocur.toNat = s.out.length) (hl : s.out.length + 40 < 2 ^ 64) :
    execWrIh s = .next (s.append (packInfoHeader s.ih)) := by
  unfold execWrIh
  rw [needInfoHeader_of_valid hv, outWrite_of_wf hw (by rwa [packInfoHeader_length])]

theorem execWrPal_of_wf (hw : s.ocur.toNat = s.out.length) (hl : s.out.length + 64 < 2 ^ 64) :
    execWrPal s = .next (s.append (paletteBlock s.pal)) := by
  unfold execWrPal
  rw [outWrite_of_wf hw (by rwa [paletteBlock_length])]

theorem execPackRow_of_short {w : Nat} (hv : s.ihV = true) (hw : widthOf s = w) (hl : s.input.length < 2 ^ 64)
    (he : s.input.length < s.icur.toNat + inRowBytes w) :
    execPackRow s = .next (raise .shortReadError s.exhaust) := by
  unfold execPackRow
  rw [needInfoHeader_of_valid hv, if_neg (by omega)]
  simp only [hw, Int.toNat_natCast]
  rw [inRead_of_short hl he]

theorem execPackRow_of_enough {w : Nat} (hv : s.ihV = true) (hw : widthOf s = w) (hl : s.input.length < 2 ^ 64)
    (he : s.icur.toNat + inRowBytes w ≤ s.input.length) (ho : s.ocur.toNat = s.out.length)
    (hb : s.out.length + (packRow s.pal (pixelsOf w (memRead (inRowBytes w) s))).length < 2 ^ 64) :
    execPackRow s = .next ((s.consume (inRowBytes w)).append (packRow s.pal (pixelsOf w (memRead (inRowBytes w) s)))) := by
  unfold execPackRow
  rw [needInfoHeader_of_valid hv, if_neg (by omega)]
  simp only [hw, Int.toNat_natCast]
  rw [inRead_of_enough hl he]
  exact outWrite_of_wf ho hb

/-! ### What a command can do -/

theorem execRdFh_cases (h : execRdFh s = .next t) :
    s.input.length < 2 ^ 64 ∧
      (s.input.length < s.icur.toNat + 14 ∧ t = raise .shortReadError s.exhaust ∨
        s.icur.toNat + 14 ≤ s.input.length ∧ t = (s.consume 14).loadFh (unpackFileHeader (memRead 14 s))) := by
  obtain ⟨hl, ⟨hs, rfl⟩ | ⟨he, h⟩⟩ := inRead_cases h
  · exact ⟨hl, .inl ⟨hs, rfl⟩⟩
  · injection h with h
    exact ⟨hl, .inr ⟨he, h.symm⟩⟩

theorem execRdIh_cases (h : execRdIh s = .next t) :
    s.input.length < 2 ^ 64 ∧
      (s.input.length < s.icur.toNat + 40 ∧ t = raise .shortReadError s.exhaust ∨
        s.icur.toNat + 40 ≤ s.input.length ∧ t = (s.consume 40).loadIh (unpackInfoHeader (memRead 40 s))) := by
  obtain ⟨hl, ⟨hs, rfl⟩ | ⟨he, h⟩⟩ := inRead_cases h
  · exact ⟨hl, .inl ⟨hs, rfl⟩⟩
  · injection h with h
    exact ⟨hl, .inr ⟨he, h.symm⟩⟩

theorem execChkSig_cases (h : execChkSig s = .next t) :
    s.fhV = false ∧ t = raise .uninitError s ∨
      s.fhV = true ∧ s.fh.signature ≠ 0x4D42 ∧ t = raise .signatureError s ∨
      s.fhV = true ∧ s.fh.signature = 0x4D42 ∧ t = s := by
  obtain ⟨hv, rfl⟩ | ⟨hv, h⟩ := needFileHeader_cases h
  · exact .inl ⟨hv, rfl⟩
  · split at h
    · rename_i hg
      injection h with h
      exact .inr (.inr ⟨hv, hg, h.symm⟩)
    · rename_i hg
      injection h with h
      exact .inr (.inl ⟨hv, hg, h.symm⟩)

theorem execChkBpp_cases (h : execChkBpp s = .next t) :
    s.ihV = false ∧ t = raise .uninitError s ∨
      s.ihV = true ∧ s.ih.bitsPerPixel ≠ 24 ∧ t = raise .depthError s ∨
      s.ihV = true ∧ s.ih.bitsPerPixel = 24 ∧ t = s := by
  obtain ⟨hv, rfl⟩ | ⟨hv, h⟩ := needInfoHeader_cases h
  · exact .inl ⟨hv, rfl⟩
  · split at h
    · rename_i hg
      injection h with h
      exact .inr (.inr ⟨hv, hg, h.symm⟩)
    · rename_i hg
      injection h with h
      exact .inr (.inl ⟨hv, hg, h.symm⟩)

theorem execHdrCvt_cases (h : execHdrCvt s = .next t) :
    (s.fhV = false ∨ s.ihV = false) ∧ t = raise .uninitError s ∨
      s.fhV = true ∧ s.ihV = true ∧ (s.ih.width.toInt < 0 ∨ s.ih.height.toInt < 0) ∧ t = raise .geometryError s ∨
      s.fhV = true ∧ s.ihV = true ∧ 0 ≤ s.ih.width.toInt ∧ 0 ≤ s.ih.height.toInt ∧
        t = s.rewriteHeaders (convertFileHeader s.ih.width.toNat s.ih.height.toNat s.fh)
          (convertInfoHeader s.ih.width.toNat s.ih.height.toNat s.ih) := by
  obtain ⟨hv, rfl⟩ | ⟨hv, h⟩ := needFileHeader_cases h
  · exact .inl ⟨.inl hv, rfl⟩
  obtain ⟨hi, rfl⟩ | ⟨hi, h⟩ := needInfoHeader_cases h
  · exact .inl ⟨.inr hi, rfl⟩
  rw [widthOf_eq, heightOf_eq] at h
  split at h
  · rename_i hg
    injection h with h
    exact .inr (.inl ⟨hv, hi, hg, h.symm⟩)
  · rename_i hg
    injection h with h
    have hw : 0 ≤ s.ih.width.toInt := by omega
    have hh : 0 ≤ s.ih.height.toInt := by omega
    rw [(toInt_toNat_of_nonneg hw).1, (toInt_toNat_of_nonneg hh).1] at h
    exact .inr (.inr ⟨hv, hi, hw, hh, h.symm⟩)

theorem execWrFh_cases (h : execWrFh s = .next t) :
    s.fhV = false ∧ t = raise .uninitError s ∨
      s.fhV = true ∧ s.ocur.toNat = s.out.length ∧ s.out.length + 14 < 2 ^ 64 ∧ t = s.append (packFileHeader s.fh) := by
  obtain ⟨hv, rfl⟩ | ⟨hv, h⟩ := needFileHeader_cases h
  · exact .inl ⟨hv, rfl⟩
  · obtain ⟨hw, hl, rfl⟩ := outWrite_cases h
    exact .inr ⟨hv, hw, hl, rfl⟩

theorem execWrIh_cases (h : execWrIh s = .next t) :
    s.ihV = false ∧ t = raise .uninitError s ∨
      s.ihV = true ∧ s.ocur.toNat = s.out.length ∧ s.out.length + 40 < 2 ^ 64 ∧ t = s.append (packInfoHeader s.ih) := by
  obtain ⟨hv, rfl⟩ | ⟨hv, h⟩ := needInfoHeader_cases h
  · exact .inl ⟨hv, rfl⟩
  · obtain ⟨hw, hl, rfl⟩ := outWrite_cases h
    exact .inr ⟨hv, hw, hl, rfl⟩

theorem execWrPal_cases (h : execWrPal s = .next t) :
    s.ocur.toNat = s.out.length ∧ s.out.length + 64 < 2 ^ 64 ∧ t = s.append (paletteBlock s.pal) :=
  outWrite_cases h

theorem execPackRow_cases (h : execPackRow s = .next t) :
    s.ihV = false ∧ t = raise .uninitError s ∨
      s.ihV = true ∧ s.ih.width.toInt < 0 ∧ t = raise .geometryError s ∨
      s.ihV = true ∧ 0 ≤ s.ih.width.toInt ∧ s.input.length < 2 ^ 64 ∧
        s.input.length < s.icur.toNat + inRowBytes s.ih.width.toNat ∧ t = raise .shortReadError s.exhaust ∨
      s.ihV = true ∧ 0 ≤ s.ih.width.toInt ∧ s.input.length < 2 ^ 64 ∧
        s.icur.toNat + inRowBytes s.ih.width.toNat ≤ s.input.length ∧ s.ocur.toNat = s.out.length ∧
        s.out.length + (packRow s.pal
          (pixelsOf s.ih.width.toNat (memRead (inRowBytes s.ih.width.toNat) s))).length < 2 ^ 64 ∧
        t = (s.consume (inRowBytes s.ih.width.toNat)).append
          (packRow s.pal (pixelsOf s.ih.width.toNat (memRead (inRowBytes s.ih.width.toNat) s))) := by
  obtain ⟨hv, rfl⟩ | ⟨hv, h⟩ := needInfoHeader_cases h
  · exact .inl ⟨hv, rfl⟩
  rw [widthOf_eq] at h
  split at h
  · rename_i hg
    injection h with h
    exact .inr (.inl ⟨hv, hg, h.symm⟩)
  · rename_i hg
    have hw : 0 ≤ s.ih.width.toInt := by omega
    simp only [(toInt_toNat_of_nonneg hw).1] at h
    obtain ⟨hl, ⟨hs, rfl⟩ | ⟨he, h⟩⟩ := inRead_cases h
    · exact .inr (.inr (.inl ⟨hv, hw, hl, hs, rfl⟩))
    · obtain ⟨ho, hb, rfl⟩ := outWrite_cases h
      exact .inr (.inr (.inr ⟨hv, hw, hl, he, ho, hb, rfl⟩))

theorem execQuant_cases {blue green red : Byte} (h : execQuant blue green red s = .next t) :
    t = s.setIdx (nearestIndex s.pal ⟨blue, green, red⟩) := by
  injection h with h
  exact h.symm

theorem execClr_cases (h : execClr s = .next t) : t = clear s := by
  injection h with h
  exact h.symm

/-- A command faults only where the output cursor is astray. -/
theorem exec_fault {i : Instr} {e : Fault} (h : exec i s = .fault e) : s.ocur.toNat ≠ s.out.length := by
  cases i with
  | rdFh =>
    have h : execRdFh s = .fault e := h
    cases inRead_fault h
  | rdIh =>
    have h : execRdIh s = .fault e := h
    cases inRead_fault h
  | chkSig =>
    have h := needFileHeader_fault h
    split at h <;> cases h
  | chkBpp =>
    have h := needInfoHeader_fault h
    split at h <;> cases h
  | hdrCvt =>
    have h := needInfoHeader_fault (needFileHeader_fault h)
    split at h <;> cases h
  | wrFh => exact outWrite_fault (needFileHeader_fault h)
  | wrIh => exact outWrite_fault (needInfoHeader_fault h)
  | wrPal => exact outWrite_fault h
  | packRow =>
    have h : execPackRow s = .fault e := h
    have h := needInfoHeader_fault h
    split at h
    · cases h
    · have h := inRead_fault h
      have h := outWrite_fault h
      rwa [consume_ocur, consume_out] at h
  | quant blue green red => cases h
  | clr => cases h

end Sys2Proof.Machine
end

