-- ==== Sys2Proof/Laws/Memory.lean ====
section
/-! SUPPORT. Every operation on the streams keeps their canonical form, and the reset state has it. -/

namespace Sys2Proof.Machine

variable {s : State}

theorem reset_memory_wf : Memory.wf State.reset := ⟨rfl, Nat.le_refl _⟩

theorem clear_memory_wf : Memory.wf (clear s) := ⟨rfl, Nat.zero_le _⟩

theorem raise_memory_wf {e : BmpError} (h : Memory.wf s) : Memory.wf (raise e s) := h

/-- A read that stays within an input shorter than 2^64 bytes moves the cursor without wrapping. -/
theorem consume_toNat {n : Nat} (hl : s.input.length < 2 ^ 64) (he : s.icur.toNat + n ≤ s.input.length) :
    (s.consume n).icur.toNat = s.icur.toNat + n := by
  rw [consume_icur, BitVec.toNat_add, BitVec.toNat_ofNat]
  omega

theorem consume_memory_wf {n : Nat} (h : Memory.wf s) (hl : s.input.length < 2 ^ 64)
    (he : s.icur.toNat + n ≤ s.input.length) : Memory.wf (s.consume n) :=
  ⟨h.1, by rw [consume_toNat hl he]; exact he⟩

theorem exhaust_memory_wf (h : Memory.wf s) : Memory.wf s.exhaust :=
  ⟨h.1, by rw [exhaust_icur, exhaust_input, BitVec.toNat_ofNat]; exact Nat.mod_le _ _⟩

/-- An append below the stream limit moves the cursor without wrapping. -/
theorem append_toNat {v : List Byte} (hw : s.ocur.toNat = s.out.length) (hl : s.out.length + v.length < 2 ^ 64) :
    (s.append v).ocur.toNat = s.out.length + v.length := by
  rw [append_ocur, BitVec.toNat_add, BitVec.toNat_ofNat, hw]
  omega

theorem append_memory_wf {v : List Byte} (h : Memory.wf s) (hl : s.out.length + v.length < 2 ^ 64) :
    Memory.wf (s.append v) :=
  ⟨by rw [append_toNat h.1 hl, append_out, List.length_append], h.2⟩

end Sys2Proof.Machine
end

