-- ==== Sys2Proof/Laws/PerInstr.lean ====
section
/-! SUPPORT. Families of statements about a command as syntax, one lemma per constructor. -/

namespace Sys2Proof.Laws.EncodeLegal

/-- The word of a command passes both checks of 30_encoding.md R95 and carries the command's opcode of R92. -/
def Statement (i : Instr) : Prop := wordLegal (encode i) = true ∧ opcodeField (encode i) = i.opcode

theorem rdFh : Statement .rdFh := ⟨by decide, by decide⟩

theorem rdIh : Statement .rdIh := ⟨by decide, by decide⟩

theorem chkSig : Statement .chkSig := ⟨by decide, by decide⟩

theorem chkBpp : Statement .chkBpp := ⟨by decide, by decide⟩

theorem hdrCvt : Statement .hdrCvt := ⟨by decide, by decide⟩

theorem wrFh : Statement .wrFh := ⟨by decide, by decide⟩

theorem wrIh : Statement .wrIh := ⟨by decide, by decide⟩

theorem wrPal : Statement .wrPal := ⟨by decide, by decide⟩

theorem packRow : Statement .packRow := ⟨by decide, by decide⟩

theorem quant (blue green red : Byte) : Statement (.quant blue green red) := by
  refine ⟨?_, opcodeField_append _ _⟩
  have hb := blue.isLt
  have hg := green.isLt
  have hr := red.isLt
  have hop : (encode (.quant blue green red)).toNat / 2 ^ 24 = 10 := by
    rw [encode_quant_toNat]
    omega
  simp only [wordLegal, opcodeAssigned, immediateAllowed, hop]
  rfl

theorem clr : Statement .clr := ⟨by decide, by decide⟩

end Sys2Proof.Laws.EncodeLegal
end

