-- ==== Sys2Proof/Laws/Quantizer.lean ====
section
/-! SUPPORT. The scan of the quantizer: what the best index is after the entries seen so far. -/

namespace Sys2Proof.Machine

/-- A component difference is between -255 and 255. -/
theorem componentDiff_bounds (a b : Byte) : -255 ≤ componentDiff a b ∧ componentDiff a b ≤ 255 := by
  have := a.isLt
  have := b.isLt
  unfold componentDiff
  omega

/-- The scan keeps the best of the entries seen: if `best` is the lowest nearest index of `seen`, the result is that of
`seen ++ rest`. -/
theorem nearestScan_spec (p : Color24) (rest : List Color24) :
    ∀ (seen : List Color24) (best : Nat) (e : Color24), seen[best]? = some e →
      (∀ (j : Nat) (f : Color24), seen[j]? = some f → dist2 p e ≤ dist2 p f ∧ (j < best → dist2 p e < dist2 p f)) →
      ∃ g, (seen ++ rest)[nearestScan p rest seen.length best (dist2 p e)]? = some g ∧
        ∀ (j : Nat) (f : Color24), (seen ++ rest)[j]? = some f →
          dist2 p g ≤ dist2 p f ∧ (j < nearestScan p rest seen.length best (dist2 p e) → dist2 p g < dist2 p f) := by
  induction rest with
  | nil =>
    intro seen best e hb hs
    simp only [List.append_nil, nearestScan]
    exact ⟨e, hb, hs⟩
  | cons x rest ih =>
    intro seen best e hb hs
    have hlt : best < seen.length := (List.getElem?_eq_some_iff.1 hb).1
    have hone : (seen ++ [x]) ++ rest = seen ++ x :: rest := by simp
    have hlen : (seen ++ [x]).length = seen.length + 1 := by simp
    by_cases hx : dist2 p x < dist2 p e
    · have := ih (seen ++ [x]) seen.length x (by simp) (by
        intro j f hf
        rcases Nat.lt_or_ge j seen.length with hj | hj
        · rw [List.getElem?_append_left hj] at hf
          have := (hs j f hf).1
          exact ⟨by omega, fun _ => by omega⟩
        · rw [List.getElem?_append_right hj] at hf
          have : j - seen.length = 0 := by
            rcases h : j - seen.length with _ | k
            · rfl
            · rw [h] at hf
              simp at hf
          rw [this] at hf
          simp only [List.getElem?_cons_zero, Option.some.injEq] at hf
          subst hf
          exact ⟨le_refl _, fun h => by omega⟩)
      rw [hone, hlen] at this
      simpa only [nearestScan, if_pos hx] using this
    · have := ih (seen ++ [x]) best e (by rw [List.getElem?_append_left hlt]; exact hb) (by
        intro j f hf
        rcases Nat.lt_or_ge j seen.length with hj | hj
        · rw [List.getElem?_append_left hj] at hf
          exact hs j f hf
        · rw [List.getElem?_append_right hj] at hf
          have : j - seen.length = 0 := by
            rcases h : j - seen.length with _ | k
            · rfl
            · rw [h] at hf
              simp at hf
          rw [this] at hf
          simp only [List.getElem?_cons_zero, Option.some.injEq] at hf
          subst hf
          exact ⟨by omega, fun h => by omega⟩)
      rw [hone, hlen] at this
      simpa only [nearestScan, if_neg hx] using this

end Sys2Proof.Machine
end

