-- ==== Sys2Proof/Laws/RowPacker.lean ====
section
/-! SUPPORT. The row packer's lengths, and the pixels of a row. -/

namespace Sys2Proof.Machine

theorem packPairs_length (pal : Palette) : ∀ px : List Color24, (packPairs pal px).length = (px.length + 1) / 2
  | [] => rfl
  | [_] => by simp [packPairs]
  | _ :: _ :: rest => by
    simp only [packPairs, List.length_cons, packPairs_length pal rest]
    omega

theorem pixelsOf_length : ∀ (w : Nat) (b : List Byte), 3 * w ≤ b.length → (pixelsOf w b).length = w
  | 0, _, _ => by simp [pixelsOf]
  | w + 1, blue :: green :: red :: rest, h => by
    simp only [pixelsOf, List.length_cons, Nat.add_right_cancel_iff]
    exact pixelsOf_length w rest (by simp only [List.length_cons] at h; omega)
  | w + 1, [], h => by simp at h
  | w + 1, [_], h => by simp at h; omega
  | w + 1, [_, _], h => by simp at h; omega

/-- The packed byte of two indices is 16 times the left plus the right. -/
theorem packedByte_eq (left right : BitVec 4) :
    packedByte left right = BitVec.ofNat 8 (16 * left.toNat + right.toNat) := by
  apply BitVec.eq_of_toNat_eq
  rw [packedByte, toNat_append_eq, BitVec.toNat_ofNat]
  have := left.isLt
  have := right.isLt
  omega

end Sys2Proof.Machine
end

