-- ==== Sys2Proof/Laws/Sequencer.lean ====
section
/-! SUPPORT. What the sequencer does with a word, an event and the queue, said once; and what a step can do. -/

namespace Sys2Proof.Machine

variable {s t : State} {w : Word} {later : List HostEvent}

theorem halted_of_err (h : s.err ≠ 0) : halted s = true := bne_iff_ne.2 h

theorem not_halted_of_err (h : s.err = 0) : halted s = false := by simp [halted, h]

theorem present_clr (h : decode w = .ok .clr) : present w s = .next (clear s) := by
  unfold present
  rw [h]
  rfl

theorem present_halted (h : decode w ≠ .ok .clr) (he : s.err ≠ 0) : present w s = .next s := by
  unfold present
  split
  · rename_i hd
    exact absurd hd h
  · rw [if_pos (halted_of_err he)]
  · rw [if_pos (halted_of_err he)]

theorem present_illegal {e : DecodeError} (h : decode w = .error e) (he : s.err = 0) :
    present w s = .next (raise .illegalCommand s) := by
  unfold present
  rw [h]
  simp only [not_halted_of_err he, Bool.false_eq_true, if_false]

theorem present_ok {i : Instr} (h : decode w = .ok i) (he : s.err = 0) : present w s = exec i s := by
  unfold present
  rw [h]
  split
  · rename_i hi
    injection hi with hi
    rw [hi]
  · rename_i hi
    injection hi with hi
    simp only [not_halted_of_err he, Bool.false_eq_true, if_false, hi]
  · rename_i hi
    cases hi

theorem step_idle (h : s.pending = []) : step s = .next s := by
  unfold step serveNext
  rw [h]

theorem step_command (h : s.pending = .command w :: later) : step s = present w (s.withPending later) := by
  unfold step serveNext
  rw [h]
  rfl

theorem step_reset (h : s.pending = .hardwareReset :: later) :
    step s = .next (clear (s.withPending later)) := by
  unfold step serveNext
  rw [h]
  rfl

/-- The word of `CLR` is the only one that decodes to it. -/
theorem decode_eq_clr_iff : decode w = .ok .clr ↔ w = 0x0F000000 := by
  constructor
  · intro h
    unfold decode at h
    split at h
    · simp [quantOf] at h
    · split at h
      · cases h
      · rename_i i hl
        split at h
        · rename_i hi
          injection h with h
          subst h
          have hop : opcodeField w = 0x0F := by
            simp only [cmd0Rows, List.lookup] at hl
            revert hl
            generalize opcodeField w = op
            revert op
            decide
          rw [← fields_append w, hop, hi]
          rfl
        · cases h
  · rintro rfl
    rfl

/-- All that a step can do when it answers a next state. -/
theorem step_cases (h : step s = .next t) :
    s.pending = [] ∧ t = s ∨
      (∃ later, s.pending = .hardwareReset :: later ∧ t = clear (s.withPending later)) ∨
      (∃ later, s.pending = .command 0x0F000000 :: later ∧ t = clear (s.withPending later)) ∨
      (∃ w later, s.pending = .command w :: later ∧ decode w ≠ .ok .clr ∧ s.err ≠ 0 ∧
        t = s.withPending later) ∨
      (∃ w later e, s.pending = .command w :: later ∧ decode w = .error e ∧ s.err = 0 ∧
        t = raise .illegalCommand (s.withPending later)) ∨
      (∃ w later i, s.pending = .command w :: later ∧ decode w = .ok i ∧ i ≠ .clr ∧ s.err = 0 ∧
        exec i (s.withPending later) = .next t) := by
  rcases hp : s.pending with _ | ⟨e, later⟩
  · rw [step_idle hp] at h
    injection h with h
    exact .inl ⟨rfl, h.symm⟩
  · cases e with
    | hardwareReset =>
      rw [step_reset hp] at h
      injection h with h
      exact .inr (.inl ⟨later, rfl, h.symm⟩)
    | command w =>
      rw [step_command hp] at h
      by_cases hc : decode w = .ok .clr
      · rw [present_clr hc] at h
        injection h with h
        rw [decode_eq_clr_iff.1 hc]
        exact .inr (.inr (.inl ⟨later, rfl, h.symm⟩))
      by_cases he : s.err = 0
      · cases hd : decode w with
        | error e =>
          rw [present_illegal hd (by exact he)] at h
          injection h with h
          exact .inr (.inr (.inr (.inr (.inl ⟨w, later, e, rfl, hd, he, h.symm⟩))))
        | ok i =>
          rw [present_ok hd (by exact he)] at h
          exact .inr (.inr (.inr (.inr (.inr ⟨w, later, i, rfl, hd, fun hi => hc (hi ▸ hd), he, h⟩))))
      · rw [present_halted hc (by exact he)] at h
        injection h with h
        exact .inr (.inr (.inr (.inl ⟨w, later, rfl, hc, he, h.symm⟩)))

end Sys2Proof.Machine
end

