-- ==== Sys2Proof/Laws/Sequences.lean ====
section
/-! SUPPORT. The host sequences, one presented word at a time, and the codec's round trip on a whole record. -/

namespace Sys2Proof.Machine

variable {w : Word} {later : List Word} {s t : State}

/-- A word that completes hands its state to the words after it. -/
theorem presentAll_cons_next (h : present w s = .next t) : presentAll (w :: later) s = presentAll later t := by
  show andThen (present w s) _ = _
  rw [h]
  rfl

/-- A halted BMPQ ignores every sequence of words without a `CLR`. -/
theorem presentAll_halted {words : List Word} (he : s.err ≠ 0) (hw : (0x0F000000 : Word) ∉ words) :
    presentAll words s = .next s := by
  induction words with
  | nil => rfl
  | cons w later ih =>
    rw [presentAll_cons_next (present_halted (fun h => hw (by rw [decode_eq_clr_iff.1 h]; simp)) he)]
    exact ih fun h => hw (List.mem_cons_of_mem _ h)

theorem setWidth_64_32 (v : BitVec 32) : (v.setWidth 64).setWidth 32 = v := by
  apply BitVec.eq_of_toNat_eq
  have := v.isLt
  simp only [BitVec.toNat_setWidth]
  omega

theorem setWidth_64_16 (v : BitVec 16) : (v.setWidth 64).setWidth 16 = v := by
  apply BitVec.eq_of_toNat_eq
  have := v.isLt
  simp only [BitVec.toNat_setWidth]
  omega

/-- The bytes of the registers of a FileHeader are those it was read from. -/
theorem pack_unpack_fileHeader {b : List Byte} (h : b.length = 14) : packFileHeader (unpackFileHeader b) = b := by
  simp only [packFileHeader, unpackFileHeader]
  rw [le16_le16At (by omega), le32_le32At (by omega), le16_le16At (by omega), le16_le16At (by omega),
    le32_le32At (by omega)]
  simp only [List.append_assoc]
  rw [slice_append_slice b 8 2 4, slice_append_slice b 6 2 _, slice_append_slice b 2 4 _, slice_append_slice b 0 2 _]
  simp [slice, h]

/-- The bytes of the registers of an InfoHeader are those it was read from. -/
theorem pack_unpack_infoHeader {b : List Byte} (h : b.length = 40) : packInfoHeader (unpackInfoHeader b) = b := by
  simp only [packInfoHeader, unpackInfoHeader]
  rw [le32_le32At (by omega), le32_le32At (by omega), le32_le32At (by omega), le16_le16At (by omega),
    le16_le16At (by omega), le32_le32At (by omega), le32_le32At (by omega), le32_le32At (by omega),
    le32_le32At (by omega), le32_le32At (by omega), le32_le32At (by omega)]
  simp only [List.append_assoc]
  rw [slice_append_slice b 32 4 _, slice_append_slice b 28 4 _, slice_append_slice b 24 4 _,
    slice_append_slice b 20 4 _, slice_append_slice b 16 4 _, slice_append_slice b 14 2 _,
    slice_append_slice b 12 2 _, slice_append_slice b 8 4 _, slice_append_slice b 4 4 _, slice_append_slice b 0 4 _]
  simp [slice, h]

end Sys2Proof.Machine
end

