-- ==== Sys2Proof/Tests/Slice0.lean ====
section
/-! SUPPORT. The model's own tests: the well-formedness checks, decoding of words written out from the encoding tables,
single steps on the vectors of spec/95_test_vectors.md, and for every statement with hypotheses a state that meets them.
Every expected value is the spec's (a vector's name is in the test's comment) or is calculated by hand from a rule. -/

namespace Sys2Proof.Tests

open Sys2Proof.Machine

/-! ## Helpers -/

/-- A state as after reset, with an input and the spec's illustrative palette (41_palette.md R163). -/
def start (input : List Byte) : State := { State.reset with input := input, pal := Config.paletteDefault }

/-- `PALETTE_ALT` of spec/95_test_vectors.md. -/
def paletteAlt : Palette :=
  #v[⟨0, 0, 0⟩, ⟨0, 0, 0⟩, ⟨0, 0, 0⟩, ⟨0, 0, 0⟩, ⟨0, 0, 0⟩, ⟨0, 0, 0⟩, ⟨0, 0, 0⟩, ⟨0, 0, 0⟩, ⟨0, 0, 0⟩, ⟨0, 0, 0⟩,
    ⟨0, 0, 0⟩, ⟨0, 0, 0⟩, ⟨0, 0, 0⟩, ⟨0, 0, 0⟩, ⟨0, 0, 0⟩, ⟨255, 255, 255⟩]

/-- One view of the next state, if there is one. -/
def after {α : Type} (r : Result) (view : State → α) : Option α :=
  match r with
  | .next t => some (view t)
  | .fault _ => none
  | .refused _ => none

theorem exists_next {r : Result} (h : (after r fun _ => true) = some true) : ∃ t, r = .next t := by
  cases r with
  | next t => exact ⟨t, rfl⟩
  | fault e => simp [after] at h
  | refused e => simp [after] at h

/-- The 14 bytes of vector HC4, every field different. -/
def fileHeaderBytes : List Byte := [0x42, 0x4D, 0xEF, 0xBE, 0xAD, 0xDE, 0x34, 0x12, 0xCD, 0xAB, 0x36, 0, 0, 0]

/-- The 40 bytes of vector HC2. -/
def infoHeaderBytes : List Byte :=
  [0x28, 0, 0, 0, 2, 0, 0, 0, 1, 0, 0, 0, 1, 0, 0x18, 0, 0, 0, 0, 0, 8, 0, 0, 0] ++ List.replicate 16 0

/-- The input of program T1. -/
def t1Input : List Byte :=
  [0x42, 0x4D, 0x3E, 0, 0, 0, 0, 0, 0, 0, 0x36, 0, 0, 0] ++ infoHeaderBytes ++ [0, 0, 0, 0xFF, 0xFF, 0xFF, 0, 0]

/-- Both headers loaded with the given width, height and offset, depth 24 (the start states of group HV). -/
def loaded (width height offset : BitVec 32) : State :=
  { start [] with
    fhV := true, ihV := true
    fh := { FileHeader.zero with signature := 0x4D42, pixelDataOffset := offset }
    ih := { InfoHeader.zero with width := width, height := height, bitsPerPixel := 24 } }

/-! ## Well-formedness: an ill-formed word for each check -/

theorem test_opcodeAssigned_refuses : opcodeAssigned 0x00000000 = false ∧ opcodeAssigned 0x0B000000 = false ∧
    opcodeAssigned 0x0E000000 = false ∧ opcodeAssigned 0x10000000 = false ∧ opcodeAssigned 0xFFFFFFFF = false := by decide

theorem test_opcodeAssigned_accepts : opcodeAssigned 0x01000000 = true ∧ opcodeAssigned 0x0A000000 = true ∧
    opcodeAssigned 0x0F000000 = true := by decide

theorem test_immediateAllowed_refuses : immediateAllowed 0x01000001 = false ∧ immediateAllowed 0x09800000 = false ∧
    immediateAllowed 0x0F000001 = false := by decide

theorem test_immediateAllowed_accepts : immediateAllowed 0x0AFFFFFF = true ∧ immediateAllowed 0x09000000 = true := by
  decide

theorem test_wordLegal_refuses : wordLegal 0x00000000 = false ∧ wordLegal 0x0F000001 = false := by decide

theorem test_every_instruction_is_well_formed (i : Instr) : i.wellFormed = true := by cases i <;> rfl

/-! ## Decoding: a word of every command, written out from 30_encoding.md R90, R92, R93 -/

theorem test_decode_rdFh : decode 0b00000001_000000000000000000000000 = .ok .rdFh := by rfl
theorem test_decode_rdIh : decode 0b00000010_000000000000000000000000 = .ok .rdIh := by rfl
theorem test_decode_chkSig : decode 0b00000011_000000000000000000000000 = .ok .chkSig := by rfl
theorem test_decode_chkBpp : decode 0b00000100_000000000000000000000000 = .ok .chkBpp := by rfl
theorem test_decode_hdrCvt : decode 0b00000101_000000000000000000000000 = .ok .hdrCvt := by rfl
theorem test_decode_wrFh : decode 0b00000110_000000000000000000000000 = .ok .wrFh := by rfl
theorem test_decode_wrIh : decode 0b00000111_000000000000000000000000 = .ok .wrIh := by rfl
theorem test_decode_wrPal : decode 0b00001000_000000000000000000000000 = .ok .wrPal := by rfl
theorem test_decode_packRow : decode 0b00001001_000000000000000000000000 = .ok .packRow := by rfl
/-- The word of 30_encoding.md R105: blue 255, green 128, red 0 is 0x0A0080FF. -/
theorem test_decode_quant : decode 0b00001010_00000000_10000000_11111111 = .ok (.quant 255 128 0) := by rfl
theorem test_decode_clr : decode 0b00001111_000000000000000000000000 = .ok .clr := by rfl
/-- Vectors DS1, DS2. -/
theorem test_decode_unassigned : decode 0x00000000 = .error (.unassignedOpcode 0x00) ∧
    decode 0x0B000000 = .error (.unassignedOpcode 0x0B) ∧ decode 0xFFFFFFFF = .error (.unassignedOpcode 0xFF) := by
  exact ⟨rfl, rfl, rfl⟩
/-- Vectors DS3, DS4. -/
theorem test_decode_immediate : decode 0x01000001 = .error (.immediateNotZero 0x01 1) ∧
    decode 0x0F000001 = .error (.immediateNotZero 0x0F 1) := by exact ⟨rfl, rfl⟩
theorem test_encode_quant : encode (.quant 200 100 50) = 0x0A3264C8 := by decide
theorem test_table_words : decodeTableWord 32 0x05000000 = some .hdrCvt ∧ decodeTableWord 32 0x05000001 = none ∧
    decodeTableWord 32 0x0AFF4000 = some (.quant 0 64 255) := by exact ⟨rfl, rfl, rfl⟩
theorem test_assembly : (Instr.quant 255 128 0).assembly = "QUANT 255, 128, 0" := by decide

/-! ## One step of each command -/

/-- Vector HC4. -/
theorem test_rdFh_loads : after (step ((start fileHeaderBytes).withFetchWord 32 0x01000000))
      (fun t => (t.fh, t.fhV, t.icur, t.err)) =
    some (⟨0x4D42, 0xDEADBEEF, 0x1234, 0xABCD, 54⟩, true, 14, 0) := by decide
/-- Vector HC7. -/
theorem test_rdFh_short : after (step ((start (fileHeaderBytes.take 13)).withFetchWord 32 0x01000000))
      (fun t => (t.fh, t.fhV, t.icur, readPort 16 t)) = some (FileHeader.zero, false, 13, 0x04) := by decide
/-- Vector HC2. -/
theorem test_rdIh_loads : after (step ((start infoHeaderBytes).withFetchWord 32 0x02000000))
      (fun t => (t.ih, t.ihV, t.icur, t.err)) = some (⟨40, 2, 1, 1, 24, 0, 8, 0, 0, 0, 0⟩, true, 40, 0) := by decide
/-- Vector HC8's second read. -/
theorem test_rdIh_short : after (step ((start (infoHeaderBytes.take 39)).withFetchWord 32 0x02000000))
      (fun t => (t.ih, t.ihV, t.icur, t.err)) = some (InfoHeader.zero, false, 39, 4) := by decide
/-- The example of 40_header_codec.md R133. -/
theorem test_wrFh_bytes :
    after (exec .wrFh { start [] with fhV := true, fh := ⟨0x4D42, 122, 0, 0, 118⟩ }) (fun t => (t.out, t.ocur)) =
    some ([0x42, 0x4D, 0x7A, 0, 0, 0, 0, 0, 0, 0, 0x76, 0, 0, 0], 14) := by decide
/-- Vector HC9. -/
theorem test_wrFh_uninit : after (step ((start []).withFetchWord 32 0x06000000)) (fun t => (t.err, t.out)) =
    some (6, []) := by decide
/-- Vectors HC2, HC3: the 40 bytes come back. -/
theorem test_wrIh_bytes :
    after (exec .wrIh { start [] with ihV := true, ih := ⟨40, 2, 1, 1, 24, 0, 8, 0, 0, 0, 0⟩ })
      (fun t => (t.out, t.ocur)) = some (infoHeaderBytes, 40) := by decide
/-- Vector HC10. -/
theorem test_wrIh_uninit : after (step ({ start [] with fhV := true }.withFetchWord 32 0x07000000))
      (fun t => (readPort 16 t, t.out)) = some (0x16, []) := by decide
/-- Vectors CK1, CK5. -/
theorem test_chkSig_passes : after (step ((loaded 0 0 0).withFetchWord 32 0x03000000)) State.err = some 0 ∧
    after (step ((start []).withFetchWord 32 0x03000000)) State.err = some 6 := by decide
/-- Vectors CK2, CK3, CK4. -/
theorem test_chkSig_rejects : [0x4B50, 0x424D, 0x4D00, 0x0042].map (fun v =>
    after (exec .chkSig { start [] with fhV := true, fh := { FileHeader.zero with signature := v } }) State.err) =
      List.replicate 4 (some 2) := by decide
/-- Vectors CK6, CK8. -/
theorem test_chkBpp_passes : after (step ((loaded 0 0 0).withFetchWord 32 0x04000000)) State.err = some 0 ∧
    after (step ((start []).withFetchWord 32 0x04000000)) State.err = some 6 := by decide
/-- Vector CK7. -/
theorem test_chkBpp_rejects : [32, 8, 4, 1, 0, 23, 25, 0x0118, 0xFFFF].map (fun v =>
    after (exec .chkBpp { start [] with ihV := true, ih := { InfoHeader.zero with bitsPerPixel := v } }) State.err) =
      List.replicate 9 (some 3) := by decide
/-- The registers of group HV: file size, offset, image size, depth, and `ERR`. -/
def cvtView (t : State) : List Nat :=
  [t.fh.fileSize.toNat, t.fh.pixelDataOffset.toNat, t.ih.imageSize.toNat, t.ih.bitsPerPixel.toNat, t.err.toNat]
/-- Vectors HV4, HV12, HV15, HV16. -/
theorem test_hdrCvt_values :
    after (exec .hdrCvt (loaded 9 3 54)) cvtView = some [142, 118, 24, 4, 0] ∧
    after (exec .hdrCvt (loaded 262144 32768 54)) cvtView = some [0x76, 118, 0, 4, 0] ∧
    after (exec .hdrCvt (loaded 0x7FFFFFFF 0x7FFFFFFF 54)) cvtView = some [0xC0000076, 118, 0xC0000000, 4, 0] ∧
    after (exec .hdrCvt (loaded 2 1 0xFFFFFFC0)) cvtView = some [122, 0, 4, 4, 0] := by decide
/-- Vectors HV18, HV19, HV21. -/
theorem test_hdrCvt_errors :
    after (exec .hdrCvt (loaded 2 0xFFFFFFFF 54)) cvtView = some [0, 54, 0, 24, 5] ∧
    after (exec .hdrCvt (loaded 0xFFFFFFFE 1 54)) cvtView = some [0, 54, 0, 24, 5] ∧
    after (exec .hdrCvt { loaded 0xFFFFFFFE 1 54 with ihV := false }) cvtView = some [0, 54, 0, 24, 6] := by decide
/-- Vector P1. -/
theorem test_wrPal_default : after (step ((start []).withFetchWord 32 0x08000000)) State.out =
    some ([0x00, 0x00, 0x00, 0, 0x00, 0x00, 0xFF, 0, 0x00, 0x80, 0xFF, 0, 0x80, 0x80, 0xFF, 0] ++
      [0x00, 0xFF, 0xFF, 0, 0x00, 0x80, 0x80, 0, 0x00, 0x80, 0x00, 0, 0x00, 0xFF, 0x00, 0] ++
      [0x80, 0xFF, 0x80, 0, 0x80, 0x00, 0x00, 0, 0xFF, 0x00, 0x00, 0, 0x80, 0x00, 0x80, 0] ++
      [0xFF, 0x00, 0xFF, 0, 0xFF, 0xFF, 0x00, 0, 0x80, 0x80, 0x80, 0, 0xFF, 0xFF, 0xFF, 0]) := by decide
/-- Vector P2. -/
theorem test_wrPal_alt : after (exec .wrPal { start [] with pal := paletteAlt }) State.out =
    some (List.replicate 60 0 ++ [0xFF, 0xFF, 0xFF, 0]) := by decide
/-- Vectors Q5 (a tie of six), Q6, Q8, Q20, Q25. -/
theorem test_quant_default : [0x0A404040, 0x0A404041, 0x0AFF4000, 0x0AFF80FF, 0x0A1EC80A].map
      (fun w => after (step ((start []).withFetchWord 32 w)) State.idx) =
    [some 0, some 9, some 1, some 3, some 7] := by decide
/-- Vectors QA1, QA2, QA3, QA5. -/
theorem test_quant_alt : [Instr.quant 0 0 0, .quant 127 127 127, .quant 128 128 128, .quant 255 255 0].map
      (fun i => after (exec i { start [] with pal := paletteAlt }) State.idx) =
    [some 0, some 0, some 15, some 15] := by decide
/-- Vectors K5 and K11. -/
theorem test_packRow_default : packRow Config.paletteDefault [⟨0, 0, 255⟩, ⟨0, 255, 0⟩, ⟨255, 0, 0⟩] = [0x17, 0xA0, 0, 0] ∧
    packRow Config.paletteDefault
      [⟨0, 0, 255⟩, ⟨0, 255, 255⟩, ⟨0, 255, 0⟩, ⟨255, 255, 0⟩, ⟨255, 0, 0⟩, ⟨255, 0, 255⟩, ⟨128, 128, 128⟩] =
      [0x14, 0x7D, 0xAC, 0xE0] := by decide
/-- Vectors K21 and K22. -/
theorem test_packRow_command :
    after (step ({ loaded 2 1 54 with input := [0, 0, 0, 0xFF, 0xFF, 0xFF, 0xAA, 0x55] }.withFetchWord 32 0x09000000))
      (fun t => (t.out, t.icur, t.ocur, t.err)) = some ([0x0F, 0, 0, 0], 8, 4, 0) ∧
    after (step ({ loaded 1 1 54 with input := [0xFF, 0xFF, 0xFF] }.withFetchWord 32 0x09000000))
      (fun t => (t.out, t.icur, t.ocur, t.err)) = some ([], 3, 0, 4) := by decide
/-- Vector DS8, and the next input bound. -/
theorem test_clr : after (step ({ loaded 2 1 54 with err := 2, icur := 14, supply := [[7]] }.withFetchWord 32 0x0F000000))
      (fun t => (t.fh, t.ih, readPort 16 t, t.icur, t.input)) =
    some (FileHeader.zero, InfoHeader.zero, 0, 0, [7]) := by decide
/-- Vectors DS1, DS4 and DS7. -/
theorem test_illegal_and_halted : after (step ((start []).withFetchWord 32 0x00000000)) State.err = some 7 ∧
    after (step ((start []).withFetchWord 32 0x0F000001)) State.err = some 7 ∧
    after (step ({ start [] with err := 2 }.withFetchWord 32 0x0AFFFFFF)) (fun t => (t.err, t.idx)) = some (2, 0) := by
  decide
/-- The end of program T1: 122 bytes, the last four `0F 00 00 00` (S1), `ERR` 0, `ICUR` 62. -/
theorem test_convert_t1 : after (convert t1Input (start [])) (fun t => (t.err, t.icur, t.ocur, t.out.drop 118)) =
    some (0, 62, 122, [0x0F, 0, 0, 0]) := by decide

/-! ## Witnesses: for every statement with hypotheses, inputs that meet them together -/

theorem witness_DecodingFollowsTheOpcodeMap :
    (∃ w : Word, w.toNat / 2 ^ 24 = 0x0A ∧ w.toNat % 2 ^ 24 = 0) ∧
    (∃ w : Word, w.toNat / 2 ^ 24 = 0x0A ∧ w.toNat % 2 ^ 24 = 2 ^ 24 - 1) ∧
    (∀ k : Fin 9, ∃ w : Word, w.toNat = (k + 1) * 2 ^ 24) ∧
    (∃ w : Word, w.toNat = 0x0F000000) ∧
    [0x00000000, 0x0B000000, 0x0E000000, 0x10000000, 0x01000001, 0x0F000001].all (fun w : Word => decide
      (w.toNat / 2 ^ 24 ≠ 0x0A ∧
      ¬ (w.toNat % 2 ^ 24 = 0 ∧ (1 ≤ w.toNat / 2 ^ 24 ∧ w.toNat / 2 ^ 24 ≤ 9 ∨ w.toNat / 2 ^ 24 = 0x0F)))) = true :=
  ⟨⟨0x0A000000, by decide⟩, ⟨0x0AFFFFFF, by decide⟩,
    fun k => ⟨BitVec.ofNat 32 ((k + 1) * 2 ^ 24), by rw [BitVec.toNat_ofNat]; omega⟩, ⟨0x0F000000, by decide⟩, by decide⟩

theorem witness_DecodeOfEncodeIsTheInstruction : (Instr.quant 255 0 1).wellFormed = true ∧ Instr.clr.wellFormed = true :=
  ⟨rfl, rfl⟩

theorem witness_EncodeOfDecodeIsTheWord : decode 0x0A0080FF = .ok (.quant 255 128 0) := rfl

/-- The next event is the word `w`; `ERR` is `err`. -/
def presenting (w : Word) (err : BitVec 4) : State := { start [] with err := err, pending := [.command w] }

theorem witness_IllegalWordsRaiseIllegalCommand :
    (presenting 0x01000001 0).pending = .command 0x01000001 :: [] ∧ wordLegal 0x01000001 = false ∧
    (presenting 0x01000001 0).err = 0 ∧ (presenting 0x01000001 2).err ≠ 0 :=
  ⟨rfl, rfl, rfl, by decide⟩

theorem witness_StepRunsTheDecodedCommand :
    (presenting 0x0F000000 2).pending = .command 0x0F000000 :: [] ∧ decode 0x0F000000 = .ok .clr ∧
    (presenting 0x01000000 2).pending = .command 0x01000000 :: [] ∧ decode 0x01000000 = .ok .rdFh ∧
    (presenting 0x01000000 2).err ≠ 0 ∧ decode 0 = .error (.unassignedOpcode 0) ∧ (presenting 0 0).err = 0 ∧
    (presenting 0x01000000 0).err = 0 :=
  ⟨rfl, rfl, rfl, rfl, by decide, rfl, rfl, rfl⟩

theorem witness_IdleStepChangesNothing : State.reset.pending = [] := rfl

theorem witness_HaltedIgnoresEveryWordButClr :
    (presenting 0x0F000001 7).pending = .command 0x0F000001 :: [] ∧ (presenting 0x0F000001 7).err ≠ 0 ∧
    (0x0F000001 : Word) ≠ 0x0F000000 := ⟨rfl, by decide, by decide⟩

theorem witness_ResetAndClrGiveTheResetValues :
    { start [] with supply := [[1], []] }.supply = [1] :: [[]] ∧
    { start [] with pending := [.hardwareReset] }.pending = .hardwareReset :: [] ∧
    (presenting 0x0F000000 0).pending = .command 0x0F000000 :: [] ∧
    (presenting 0x0F000001 2).pending = .command 0x0F000001 :: [] ∧ (presenting 0x0F000001 2).err ≠ 0 :=
  ⟨rfl, rfl, rfl, rfl, by decide⟩

/-- Exactly 14 bytes left, and 13. -/
theorem witness_RdFhLoadsTheFileHeader :
    (start fileHeaderBytes).input.length < 2 ^ 64 ∧
    (start fileHeaderBytes).input =
      [] ++ [0x42, 0x4D, 0xEF, 0xBE, 0xAD, 0xDE, 0x34, 0x12, 0xCD, 0xAB, 0x36, 0, 0, 0] ++ [] ∧
    (start fileHeaderBytes).icur.toNat = ([] : List Byte).length ∧
    (start (fileHeaderBytes.take 13)).input.length < (start (fileHeaderBytes.take 13)).icur.toNat + 14 := by
  refine ⟨by decide, rfl, rfl, by decide⟩

/-- Exactly 40 bytes left, and 39. -/
theorem witness_RdIhLoadsTheInfoHeader :
    (start infoHeaderBytes).input.length < 2 ^ 64 ∧
    (start infoHeaderBytes).icur.toNat + 40 ≤ (start infoHeaderBytes).input.length ∧
    (start (infoHeaderBytes.take 39)).input.length < (start (infoHeaderBytes.take 39)).icur.toNat + 40 := by
  refine ⟨by decide, by decide, by decide⟩

theorem witness_WrFhAppendsTheFileHeader :
    (start []).fhV = false ∧ (loaded 2 1 54).fhV = true ∧ (loaded 2 1 54).ocur.toNat = (loaded 2 1 54).out.length ∧
    (loaded 2 1 54).out.length + 14 < 2 ^ 64 := by refine ⟨rfl, rfl, rfl, by decide⟩

theorem witness_WrIhAppendsTheInfoHeader :
    (start []).ihV = false ∧ (loaded 2 1 54).ihV = true ∧ (loaded 2 1 54).ocur.toNat = (loaded 2 1 54).out.length ∧
    (loaded 2 1 54).out.length + 40 < 2 ^ 64 := by refine ⟨rfl, rfl, rfl, by decide⟩

theorem witness_HeaderReadThenWriteKeepsEveryByte :
    (start infoHeaderBytes).input.length < 2 ^ 64 ∧
    (start infoHeaderBytes).ocur.toNat = (start infoHeaderBytes).out.length ∧
    (start infoHeaderBytes).out.length + 40 < 2 ^ 64 ∧
    (start infoHeaderBytes).icur.toNat + 14 ≤ (start infoHeaderBytes).input.length ∧
    (start infoHeaderBytes).icur.toNat + 40 ≤ (start infoHeaderBytes).input.length := by
  refine ⟨by decide, rfl, by decide, by decide, by decide⟩

theorem witness_ChkSigChecksTheSignature :
    (loaded 2 1 54).fhV = true ∧ (loaded 2 1 54).fh.signature = 0x4D42 ∧ (loaded 2 1 54).err = 0 ∧
    (loaded 2 1 54).fh.signature = (0x4D : Byte) ++ (0x42 : Byte) ∧
    { loaded 2 1 54 with fh := FileHeader.zero }.fh.signature ≠ 0x4D42 ∧ (start []).fhV = false :=
  ⟨rfl, rfl, rfl, rfl, by decide, rfl⟩

theorem witness_ChkBppChecksTheDepth :
    (loaded 2 1 54).ihV = true ∧ (loaded 2 1 54).ih.bitsPerPixel = 24 ∧
    { loaded 2 1 54 with ih := InfoHeader.zero }.ih.bitsPerPixel ≠ 24 ∧ (start []).ihV = false ∧
    (0x0F000000 : Word) ∈ inspectWords := ⟨rfl, rfl, by decide, rfl, by decide⟩

/-- The smallest and the largest width and height, and the negative ones next to them. -/
theorem witness_HdrCvtRewritesFourRegisters :
    (start []).fhV = false ∧ (loaded 0 0 54).fhV = true ∧ (loaded 0 0 54).ihV = true ∧
    (loaded 0 0 54).ih.width.toInt = (0 : Nat) ∧ (loaded 0 0 54).ih.height.toInt = (0 : Nat) ∧
    (loaded 0x7FFFFFFF 0x7FFFFFFF 54).ih.width.toInt = (2 ^ 31 - 1 : Nat) ∧
    (loaded 0x7FFFFFFF 0x7FFFFFFF 54).ih.height.toInt = (2 ^ 31 - 1 : Nat) ∧
    (loaded 0xFFFFFFFF 0 54).ih.width.toInt < 0 ∧ (loaded 0 0x80000000 54).ih.height.toInt < 0 := by
  refine ⟨rfl, rfl, rfl, rfl, rfl, by decide, by decide, by decide, by decide⟩

theorem witness_WrPalAppendsThePaletteBlock :
    (start []).ocur.toNat = (start []).out.length ∧ (start []).out.length + 64 < 2 ^ 64 := by
  refine ⟨rfl, by decide⟩

/-- A step that is no reset, a command that is no `CLR`. -/
theorem witness_steps_within_a_run : (∃ t, step (presenting 0x08000000 0) = .next t) ∧
    (presenting 0x08000000 0).pending.head? ≠ some .hardwareReset ∧
    (presenting 0x08000000 0).pending.head? ≠ some (.command 0x0F000000) :=
  ⟨exists_next (by decide), by decide, by decide⟩

theorem witness_PaletteAndInputAreFixedInARun : ∃ s t, step s = .next t ∧
    s.pending.head? ≠ some .hardwareReset ∧ s.pending.head? ≠ some (.command 0x0F000000) :=
  have ⟨⟨t, h⟩, h'⟩ := witness_steps_within_a_run
  ⟨_, t, h, h'⟩

theorem witness_QuantOfBlackIsZeroAndOfWhiteFifteen : (start []).pal.Legal := Config.legalDefault.legal

/-- A full pair, a last single pixel, and a padding byte. -/
theorem witness_PackedRowContent :
    let px : List Color24 := [⟨0, 0, 0⟩, ⟨255, 255, 255⟩, ⟨0, 0, 255⟩]
    px[2 * 0]? = some ⟨0, 0, 0⟩ ∧ px[2 * 0 + 1]? = some ⟨255, 255, 255⟩ ∧ px.length = 2 * 1 + 1 ∧
    px[2 * 1]? = some ⟨0, 0, 255⟩ ∧ (px.length + 1) / 2 ≤ 2 ∧ 2 < 4 * ((px.length + 7) / 8) := by decide

/-- Widths 0 and 2, the row just there and one byte short. -/
theorem witness_PackRowReadsAndAppendsOneRow :
    let s := { loaded 2 1 54 with input := [0, 0, 0, 0xFF, 0xFF, 0xFF, 0, 0] }
    let short := { loaded 2 1 54 with input := [0, 0, 0, 0xFF, 0xFF, 0xFF, 0] }
    (start []).ihV = false ∧ (loaded 0xFFFFFFFE 1 54).ihV = true ∧ (loaded 0xFFFFFFFE 1 54).ih.width.toInt < 0 ∧
    s.ihV = true ∧ s.ih.width.toInt = ((2 : Nat) : Int) ∧ s.input.length < 2 ^ 64 ∧
    s.icur.toNat + (3 * 2 + (4 - 3 * 2 % 4) % 4) ≤ s.input.length ∧ s.ocur.toNat = s.out.length ∧
    s.out.length + 4 * ((2 + 7) / 8) < 2 ^ 64 ∧
    short.ih.width.toInt = ((2 : Nat) : Int) ∧ short.input.length < short.icur.toNat + (3 * 2 + (4 - 3 * 2 % 4) % 4) ∧
    (loaded 0 1 54).ih.width.toInt = (0 : Nat) ∧
    (loaded 0 1 54).icur.toNat + (3 * 0 + (4 - 3 * 0 % 4) % 4) ≤ (loaded 0 1 54).input.length := by
  refine ⟨rfl, rfl, by decide, rfl, rfl, by decide, by decide, rfl, by decide, rfl, by decide, rfl, by decide⟩

/-- An error that is a short read, and one that is not. -/
theorem witness_ErrorsArePrecise :
    (∃ s t, step s = .next t ∧ s.err = 0 ∧ t.err ≠ 0 ∧ t.err = 4) ∧
    ∃ s t, step s = .next t ∧ s.err = 0 ∧ t.err ≠ 0 ∧ t.err ≠ 4 :=
  ⟨⟨presenting 0x01000000 0, _, rfl, rfl, by decide, rfl⟩, ⟨presenting 0x03000000 0, _, rfl, rfl, by decide, by decide⟩⟩

/-- Each error of the matrix raised once. -/
theorem witness_OnlyTheListedCommandsRaiseEachError :
    (∃ t, exec .chkSig { loaded 2 1 54 with fh := FileHeader.zero } = .next t ∧ t.err = 2) ∧
    (∃ t, exec .chkBpp { loaded 2 1 54 with ih := InfoHeader.zero } = .next t ∧ t.err = 3) ∧
    (∃ t, exec .rdIh (loaded 2 1 54) = .next t ∧ t.err = 4) ∧
    (∃ t, exec .packRow (loaded 0x80000000 1 54) = .next t ∧ t.err = 5) ∧
    (∃ t, exec .hdrCvt (start []) = .next t ∧ t.err = 6) ∧ (loaded 2 1 54).err = 0 ∧ (start []).err = 0 :=
  ⟨⟨_, rfl, rfl⟩, ⟨_, rfl, rfl⟩, ⟨_, rfl, rfl⟩, ⟨_, rfl, rfl⟩, ⟨_, rfl, rfl⟩, rfl, rfl⟩

theorem witness_OnlyClrAndResetClearErr :
    (∃ t, step (presenting 0x0F000000 7) = .next t) ∧ (presenting 0x0F000000 7).err ≠ 0 ∧
    (presenting 0x0F000000 7).pending.head? = some (.command 0x0F000000) ∧
    (∃ t, step { presenting 0 7 with pending := [.hardwareReset] } = .next t) ∧
    (∃ t, step (presenting 0x01000000 7) = .next t) ∧
    { presenting 0x0F000000 7 with supply := [[1], []] }.supply = [1] :: [[]] ∧
    (∃ t, step { presenting 0x0F000000 7 with supply := [[1], []] } = .next t) :=
  ⟨⟨_, rfl⟩, by decide, rfl, ⟨_, rfl⟩, ⟨_, rfl⟩, rfl, ⟨_, rfl⟩⟩

theorem witness_FrameOfCommandsThatStoreNothing :
    (∃ t, exec .chkSig (loaded 2 1 54) = .next t) ∧ (∃ t, exec .chkBpp (loaded 2 1 54) = .next t) ∧
    (∃ t, exec (.quant 1 2 3) (loaded 2 1 54) = .next t) ∧ (∃ t, exec .rdFh (start fileHeaderBytes) = .next t) ∧
    (∃ t, exec .rdIh (start infoHeaderBytes) = .next t) ∧ ∃ t, exec .hdrCvt (loaded 2 1 54) = .next t :=
  ⟨⟨_, rfl⟩, ⟨_, rfl⟩, ⟨_, rfl⟩, ⟨_, rfl⟩, ⟨_, rfl⟩, ⟨_, rfl⟩⟩

/-- The four storing commands; an address just below and just above the stored bytes. -/
theorem witness_FrameOfCommandsThatStore :
    let s := { loaded 2 1 54 with input := [0, 0, 0, 0xFF, 0xFF, 0xFF, 0, 0], out := [9], ocur := 1 }
    (∃ t, exec .wrFh s = .next t) ∧ (∃ t, exec .wrIh s = .next t) ∧ (∃ t, exec .wrPal s = .next t) ∧
    (∃ t, exec .packRow s = .next t) ∧ s.ocur.toNat = s.out.length ∧ rowBytes s.ih.width.toNat = 4 ∧
    0 < s.ocur.toNat ∧ s.ocur.toNat + 4 ≤ 5 :=
  ⟨exists_next (by decide), exists_next (by decide), exists_next (by decide), exists_next (by decide), rfl, rfl,
    by decide, by decide⟩

theorem witness_BytesEachCommandMoves :
    (∃ t, exec .rdFh (start fileHeaderBytes) = .next t ∧ t.err = 0) ∧
    (∃ t, exec .rdIh (start infoHeaderBytes) = .next t ∧ t.err = 0) ∧
    (∃ t, exec (.quant 0 0 0) (start []) = .next t ∧ t.err = 0) ∧
    (∃ t, exec .wrFh (loaded 2 1 54) = .next t ∧ t.err = 0) ∧
    (∃ t, exec .packRow { loaded 2 1 54 with input := [0, 0, 0, 0, 0, 0, 0, 0] } = .next t ∧ t.err = 0) ∧
    (∃ t, exec .rdIh (start []) = .next t ∧ t.err ≠ 0) ∧ (start fileHeaderBytes).err = 0 ∧ (start []).err = 0 :=
  ⟨⟨_, rfl, rfl⟩, ⟨_, rfl, rfl⟩, ⟨_, rfl, rfl⟩, ⟨_, rfl, rfl⟩, ⟨_, rfl, rfl⟩, ⟨_, rfl, by decide⟩, rfl, rfl⟩

/-- A step in which `FH_V` changes, and one in which `IDX` does. -/
theorem witness_WritersOfRegistersAndFlags :
    (∃ s t, step s = .next t ∧ s.pending.head? ≠ some .hardwareReset ∧
      s.pending.head? ≠ some (.command 0x0F000000) ∧ t.fh ≠ s.fh ∧ t.fhV ≠ s.fhV) ∧
    (∃ s t, step s = .next t ∧ s.pending.head? ≠ some .hardwareReset ∧
      s.pending.head? ≠ some (.command 0x0F000000) ∧ t.ih ≠ s.ih ∧ t.ihV ≠ s.ihV) ∧
    ∃ s t, step s = .next t ∧ s.pending.head? ≠ some .hardwareReset ∧
      s.pending.head? ≠ some (.command 0x0F000000) ∧ t.idx ≠ s.idx :=
  ⟨⟨{ presenting 0x01000000 0 with input := fileHeaderBytes }, _, rfl, by decide, by decide, by decide, by decide⟩,
    ⟨{ presenting 0x02000000 0 with input := infoHeaderBytes }, _, rfl, by decide, by decide, by decide, by decide⟩,
    ⟨presenting 0x0AFFFFFF 0, _, rfl, by decide, by decide, by decide⟩⟩

theorem witness_OutputOnlyGrows : ∃ s t, step s = .next t ∧
    s.pending.head? ≠ some .hardwareReset ∧ s.pending.head? ≠ some (.command 0x0F000000) :=
  witness_PaletteAndInputAreFixedInARun

theorem witness_ReadPortGivesTheNumberedRegisters :
    20 ≤ 20 ∧ (start []).fhV = false ∧ (start []).ihV = false ∧ (loaded 2 1 54).fhV = true ∧
    (loaded 2 1 54).ihV = true := ⟨by decide, rfl, rfl, rfl, rfl⟩

/-- The invariant is met before a step that answers a next state. -/
theorem witness_StepKeepsTheInvariant : (presenting 0x08000000 0).Inv ∧ ∃ t, step (presenting 0x08000000 0) = .next t :=
  ⟨by decide, exists_next (by decide)⟩

theorem witness_StepIsTotalAndNeverFaults :
    (presenting 0x09000000 0).Inv ∧ (presenting 0x09000000 0).out.length + 2 ^ 30 < 2 ^ 64 := by
  refine ⟨by decide, by decide⟩

theorem wrPal_refused {s : State} (hw : s.ocur.toNat = s.out.length) (hl : 2 ^ 64 ≤ s.out.length + 64) :
    exec .wrPal s = .refused .outputTooLong := by
  show outWrite (paletteBlock s.pal) s = _
  unfold outWrite
  rw [if_neg (not_not.2 hw), if_pos]
  rw [paletteBlock_length]
  exact hl

/-- `WR_PAL` presented, with bytes in `OUT`. -/
def appendingTo (out : List Byte) : State :=
  { presenting 0x08000000 0 with out := out, ocur := BitVec.ofNat 64 out.length }

theorem appendingTo_refused {out : List Byte} (h : out.length = 2 ^ 64 - 64) :
    (appendingTo out).Inv ∧ step (appendingTo out) = .refused .outputTooLong := by
  have hw : (appendingTo out).ocur.toNat = out.length := by
    show (BitVec.ofNat 64 out.length).toNat = _
    rw [BitVec.toNat_ofNat]
    omega
  refine ⟨⟨⟨hw, Nat.zero_le _⟩, ⟨Nat.two_pow_pos 64, fun _ hb => absurd hb List.not_mem_nil⟩,
    ⟨show (0 : BitVec 4) ≠ 1 by decide, Nat.zero_le 7⟩,
    ⟨fun _ => rfl, fun _ => rfl⟩, Config.legalDefault.legal⟩, ?_⟩
  rw [step_command (w := 0x08000000) (later := []) rfl, present_ok (i := .wrPal) rfl rfl]
  exact wrPal_refused hw (by show 2 ^ 64 ≤ out.length + 64; omega)

/-- The refusal at the stream limit: the 64 bytes of `WR_PAL` would bring `OUT` to 2^64. -/
theorem witness_StepIsTotalAndNeverFaults_refusal : ∃ s : State, s.Inv ∧ step s = .refused .outputTooLong :=
  have ⟨_, h⟩ : ∃ out : List Byte, out.length = 2 ^ 64 - 64 := ⟨List.replicate _ 0, List.length_replicate⟩
  ⟨_, appendingTo_refused h⟩

/-- T1's input, and the 54 bytes of a picture of no rows. -/
theorem witness_ConvertWritesTheConvertedBitmap :
    (t1Input.length < 2 ^ 64 ∧ leValue (slice t1Input 0 2) = 0x4D42 ∧ leValue (slice t1Input 28 2) = 24 ∧
      leValue (slice t1Input 18 4) = 2 ∧ leValue (slice t1Input 22 4) = 1 ∧ 54 + 1 * inRowBytes 2 ≤ t1Input.length) ∧
    let file := (t1Input.take 54).set 22 0
    file.length < 2 ^ 64 ∧ leValue (slice file 0 2) = 0x4D42 ∧ leValue (slice file 28 2) = 24 ∧
      leValue (slice file 18 4) = 2 ∧ leValue (slice file 22 4) = 0 ∧ 54 + 0 * inRowBytes 2 ≤ file.length := by decide

theorem witness_InspectAfterConvertReportsTheSameSize :
    (t1Input.length < 2 ^ 64 ∧ leValue (slice t1Input 0 2) = 0x4D42 ∧ leValue (slice t1Input 28 2) = 24 ∧
      leValue (slice t1Input 18 4) = 2 ∧ leValue (slice t1Input 22 4) = 1 ∧ 54 + 1 * inRowBytes 2 ≤ t1Input.length) ∧
    ∃ t, convert t1Input (start []) = .next t :=
  ⟨by decide, exists_next (by decide)⟩

/-- A bad signature on 14 bytes, and a depth of 32 on 54. -/
theorem witness_RejectedInputsLeaveNoOutput :
    let bad : List Byte := [0x50, 0x4B] ++ List.replicate 12 0
    let deep := (t1Input.take 54).set 28 32
    (bad.length < 2 ^ 64 ∧ 14 ≤ bad.length ∧ leValue (slice bad 0 2) ≠ 0x4D42) ∧
    deep.length < 2 ^ 64 ∧ 54 ≤ deep.length ∧ leValue (slice deep 0 2) = 0x4D42 ∧ leValue (slice deep 28 2) ≠ 24 := by
  decide

/-- 13 bytes, a bad signature on 14, a good one on 53, a depth of 32 on 54, a width of -2^31 and a height of -1 on 54. -/
theorem witness_ConvertReportsTheFirstErrorInOrder :
    let deep := (t1Input.take 54).set 28 32
    let wide := (t1Input.take 54).set 21 0x80
    let tall := ((((t1Input.take 54).set 22 0xFF).set 23 0xFF).set 24 0xFF).set 25 0xFF
    (t1Input.take 13).length < 14 ∧ leValue (slice (0x50 :: t1Input.take 13) 0 2) ≠ 0x4D42 ∧
    14 ≤ (t1Input.take 53).length ∧ (t1Input.take 53).length < 54 ∧
    leValue (slice (t1Input.take 53) 0 2) = 0x4D42 ∧
    54 ≤ deep.length ∧ leValue (slice deep 0 2) = 0x4D42 ∧ leValue (slice deep 28 2) ≠ 24 ∧
    54 ≤ wide.length ∧ leValue (slice wide 0 2) = 0x4D42 ∧ leValue (slice wide 28 2) = 24 ∧
    2 ^ 31 ≤ leValue (slice wide 18 4) ∧
    54 ≤ tall.length ∧ leValue (slice tall 0 2) = 0x4D42 ∧ leValue (slice tall 28 2) = 24 ∧
    2 ^ 31 ≤ leValue (slice tall 22 4) ∧ tall.length < 2 ^ 64 := by decide

/-- Row 0 incomplete: T1's input one byte short, and cut right after the headers (vector ER8). Row 1 incomplete: T1's
input with height 2, its one row there and the next missing, and the next there but for one byte. -/
theorem witness_ConvertStopsAtTheFirstIncompleteRow :
    let meets (file : List Byte) (H k : Nat) : Prop := file.length < 2 ^ 64 ∧
      leValue (slice file 0 2) = 0x4D42 ∧ leValue (slice file 28 2) = 24 ∧ leValue (slice file 18 4) = 2 ∧ 2 < 2 ^ 31 ∧
      leValue (slice file 22 4) = H ∧ H < 2 ^ 31 ∧ k < H ∧
      54 + k * inRowBytes 2 ≤ file.length ∧ file.length < 54 + (k + 1) * inRowBytes 2
    let two := t1Input.set 22 2
    meets (t1Input.take 61) 1 0 ∧ meets (t1Input.take 54) 1 0 ∧ meets two 2 1 ∧
      meets (two ++ List.replicate 7 0) 2 1 := by decide

end Sys2Proof.Tests
end

/-! SUPPORT. What a legal word says of its command, and what one command or one step can do to the state: the ground
for the statements about the state (10_state.md). -/

namespace Sys2Proof

/-- Every row of the opcode map names its command's opcode, and its command has no immediate (30_encoding.md R91,
R92). -/
theorem opcode_immediate_of_mem_cmd0Rows : ∀ r ∈ cmd0Rows, r.2.opcode = r.1 ∧ r.2.immediate = 0 := by decide

/-- The pixel of `QUANT` holds all of the immediate (30_encoding.md R93). -/
theorem immediate_quantOf (imm : BitVec 24) : (quantOf imm).immediate = imm := by
  apply BitVec.eq_of_toNat_eq
  simp only [quantOf, Instr.immediate, Machine.toNat_append_eq, BitVec.extractLsb'_toNat]
  have := imm.isLt
  omega

/-- A word that decodes is the word of its command: no two words share one (30_encoding.md R94, R96). -/
theorem encode_of_decode {w : Word} {i : Instr} (h : decode w = .ok i) : encode i = w := by
  suffices hf : i.opcode = opcodeField w ∧ i.immediate = imm24Field w by
    rw [encode, hf.1, hf.2, fields_append]
  unfold decode at h
  split at h
  · rename_i hop
    injection h with h
    subst h
    exact ⟨hop.symm, immediate_quantOf _⟩
  · split at h
    · cases h
    · rename_i hl
      split at h
      · rename_i himm
        injection h with h
        subst h
        obtain ⟨before, after, hrows, -⟩ := List.lookup_eq_some_iff.1 hl
        rw [himm]
        exact opcode_immediate_of_mem_cmd0Rows _ (hrows ▸ List.mem_append_right _ List.mem_cons_self)
      · cases h

end Sys2Proof

namespace Sys2Proof.Machine

variable {s t : State} {i : Instr}

/-! ### What a command other than `CLR` can do -/

/-- The changes of state that the commands other than `CLR` are made of, each with what is known when it happens; only
the writes of header registers, of a valid flag and of `IDX` name their command (10_state.md R23, R24). -/
inductive CommandEffect (s : State) : Instr → State → Prop
  | done (i : Instr) : CommandEffect s i s
  | raised (i : Instr) (e : BmpError) (he : e ≠ .openError) : CommandEffect s i (raise e s)
  | shortRead (i : Instr) : CommandEffect s i (raise .shortReadError s.exhaust)
  | loadedFh (h : FileHeader) (he : s.icur.toNat + 14 ≤ s.input.length) :
      CommandEffect s .rdFh ((s.consume 14).loadFh h)
  | loadedIh (h : InfoHeader) (he : s.icur.toNat + 40 ≤ s.input.length) :
      CommandEffect s .rdIh ((s.consume 40).loadIh h)
  | rewritten (f : FileHeader) (h : InfoHeader) (hf : s.fhV = true) (hi : s.ihV = true) :
      CommandEffect s .hdrCvt (s.rewriteHeaders f h)
  | appended (i : Instr) (v : List Byte) (hl : s.out.length + v.length < 2 ^ 64) : CommandEffect s i (s.append v)
  | rowPacked (n : Nat) (v : List Byte) (he : s.icur.toNat + n ≤ s.input.length)
      (hl : s.out.length + v.length < 2 ^ 64) : CommandEffect s .packRow ((s.consume n).append v)
  | indexed (blue green red : Byte) (k : BitVec 4) : CommandEffect s (.quant blue green red) (s.setIdx k)

/-- Every command other than `CLR` that answers a next state has one of these effects. -/
theorem exec_effect (hi : i ≠ .clr) (h : exec i s = .next t) : CommandEffect s i t := by
  cases i with
  | rdFh =>
    obtain ⟨-, ⟨-, rfl⟩ | ⟨he, rfl⟩⟩ := execRdFh_cases h
    · exact .shortRead _
    · exact .loadedFh _ he
  | rdIh =>
    obtain ⟨-, ⟨-, rfl⟩ | ⟨he, rfl⟩⟩ := execRdIh_cases h
    · exact .shortRead _
    · exact .loadedIh _ he
  | chkSig =>
    obtain ⟨-, rfl⟩ | ⟨-, -, rfl⟩ | ⟨-, -, rfl⟩ := execChkSig_cases h
    · exact .raised _ _ (by decide)
    · exact .raised _ _ (by decide)
    · exact .done _
  | chkBpp =>
    obtain ⟨-, rfl⟩ | ⟨-, -, rfl⟩ | ⟨-, -, rfl⟩ := execChkBpp_cases h
    · exact .raised _ _ (by decide)
    · exact .raised _ _ (by decide)
    · exact .done _
  | hdrCvt =>
    obtain ⟨-, rfl⟩ | ⟨-, -, -, rfl⟩ | ⟨hf, hi, -, -, rfl⟩ := execHdrCvt_cases h
    · exact .raised _ _ (by decide)
    · exact .raised _ _ (by decide)
    · exact .rewritten _ _ hf hi
  | wrFh =>
    obtain ⟨-, rfl⟩ | ⟨-, -, hl, rfl⟩ := execWrFh_cases h
    · exact .raised _ _ (by decide)
    · exact .appended _ _ hl
  | wrIh =>
    obtain ⟨-, rfl⟩ | ⟨-, -, hl, rfl⟩ := execWrIh_cases h
    · exact .raised _ _ (by decide)
    · exact .appended _ _ hl
  | wrPal =>
    obtain ⟨-, hl, rfl⟩ := execWrPal_cases h
    exact .appended _ _ hl
  | packRow =>
    obtain ⟨-, rfl⟩ | ⟨-, -, rfl⟩ | ⟨-, -, -, -, rfl⟩ | ⟨-, -, -, he, -, hl, rfl⟩ := execPackRow_cases h
    · exact .raised _ _ (by decide)
    · exact .raised _ _ (by decide)
    · exact .shortRead _
    · exact .rowPacked _ _ he hl
  | quant blue green red =>
    obtain rfl := execQuant_cases h
    exact .indexed _ _ _ _
  | clr => exact absurd rfl hi

/-- All that a step can do whose event is no hardware reset and no `CLR`: a step within a run. -/
theorem step_in_run_cases (h : step s = .next t) (hr : s.pending.head? ≠ some .hardwareReset)
    (hc : s.pending.head? ≠ some (.command 0x0F000000)) :
    t = s ∨ ∃ w later, s.pending = .command w :: later ∧
      (t = s.withPending later ∨ t = raise .illegalCommand (s.withPending later) ∨
        ∃ i, decode w = .ok i ∧ CommandEffect (s.withPending later) i t) := by
  obtain ⟨-, rfl⟩ | ⟨later, hp, -⟩ | ⟨later, hp, -⟩ | ⟨w, later, hp, -, -, rfl⟩ | ⟨w, later, -, hp, -, -, rfl⟩ |
    ⟨w, later, i, hp, hd, hi, -, h⟩ := step_cases h
  · exact .inl rfl
  · exact absurd (congrArg List.head? hp) hr
  · exact absurd (congrArg List.head? hp) hc
  · exact .inr ⟨w, later, hp, .inl rfl⟩
  · exact .inr ⟨w, later, hp, .inr (.inl rfl)⟩
  · exact .inr ⟨w, later, hp, .inr (.inr ⟨i, hd, exec_effect hi h⟩)⟩

/-! ### What every effect keeps, and which command writes -/

theorem CommandEffect.pal_eq (h : CommandEffect s i t) : t.pal = s.pal := by
  cases h <;> simp

theorem CommandEffect.input_eq (h : CommandEffect s i t) : t.input = s.input ∧ t.supply = s.supply := by
  cases h <;> simp

theorem CommandEffect.out_eq_append (h : CommandEffect s i t) : ∃ v : List Byte, t.out = s.out ++ v := by
  cases h with
  | appended _ v _ => exact ⟨v, append_out s v⟩
  | rowPacked n v _ _ => exact ⟨v, append_out (s.consume n) v⟩
  | _ => exact ⟨[], (List.append_nil _).symm⟩

theorem CommandEffect.flags_stay (h : CommandEffect s i t) :
    (s.fhV = true → t.fhV = true) ∧ (s.ihV = true → t.ihV = true) := by
  cases h <;> simp

theorem CommandEffect.fh_writer (h : CommandEffect s i t) (hne : t.fh ≠ s.fh) : i = .rdFh ∨ i = .hdrCvt := by
  cases h <;> simp at hne ⊢

theorem CommandEffect.ih_writer (h : CommandEffect s i t) (hne : t.ih ≠ s.ih) : i = .rdIh ∨ i = .hdrCvt := by
  cases h <;> simp at hne ⊢

theorem CommandEffect.fhV_writer (h : CommandEffect s i t) (hne : t.fhV ≠ s.fhV) : i = .rdFh := by
  cases h <;> simp at hne ⊢

theorem CommandEffect.ihV_writer (h : CommandEffect s i t) (hne : t.ihV ≠ s.ihV) : i = .rdIh := by
  cases h <;> simp at hne ⊢

theorem CommandEffect.idx_writer (h : CommandEffect s i t) (hne : t.idx ≠ s.idx) :
    ∃ blue green red, i = .quant blue green red := by
  cases h <;> simp at hne ⊢

/-! ### Every operation keeps the invariant -/

theorem errLegal_of_errorCode {e : BmpError} (he : e ≠ .openError) : errorCode e ≠ 1 ∧ (errorCode e).toNat ≤ 7 := by
  cases e with
  | openError => exact absurd rfl he
  | _ => decide

theorem State.Inv.raise {e : BmpError} (h : s.Inv) (he : e ≠ .openError) : (raise e s).Inv := by
  obtain ⟨hm, hb, -, hz, hp⟩ := h
  exact ⟨raise_memory_wf hm, hb, errLegal_of_errorCode he, hz, hp⟩

theorem State.Inv.exhaust (h : s.Inv) : s.exhaust.Inv := by
  obtain ⟨hm, hrest⟩ := h
  exact ⟨exhaust_memory_wf hm, hrest⟩

theorem State.Inv.consume {n : Nat} (h : s.Inv) (he : s.icur.toNat + n ≤ s.input.length) : (s.consume n).Inv := by
  obtain ⟨hm, hb, hrest⟩ := h
  exact ⟨consume_memory_wf hm hb.1 he, hb, hrest⟩

theorem State.Inv.append {v : List Byte} (h : s.Inv) (hl : s.out.length + v.length < 2 ^ 64) : (s.append v).Inv := by
  obtain ⟨hm, hrest⟩ := h
  exact ⟨append_memory_wf hm hl, hrest⟩

theorem State.Inv.loadFh (h : s.Inv) (f : FileHeader) : (s.loadFh f).Inv := by
  obtain ⟨hm, hb, he, hz, hp⟩ := h
  exact ⟨hm, hb, he, ⟨fun hv => absurd hv (by simp), hz.2⟩, hp⟩

theorem State.Inv.loadIh (h : s.Inv) (f : InfoHeader) : (s.loadIh f).Inv := by
  obtain ⟨hm, hb, he, hz, hp⟩ := h
  exact ⟨hm, hb, he, ⟨hz.1, fun hv => absurd hv (by simp)⟩, hp⟩

/-- Headers are rewritten only while both are valid, so no invalid header gets registers other than 0. -/
theorem State.Inv.rewriteHeaders (h : s.Inv) (hf : s.fhV = true) (hi : s.ihV = true) (f : FileHeader)
    (g : InfoHeader) : (s.rewriteHeaders f g).Inv := by
  obtain ⟨hm, hb, he, -, hp⟩ := h
  exact ⟨hm, hb, he, ⟨fun hv => absurd hv (by simp [hf]), fun hv => absurd hv (by simp [hi])⟩, hp⟩

theorem State.Inv.setIdx (h : s.Inv) (k : BitVec 4) : (s.setIdx k).Inv := h

theorem State.Inv.withPending (h : s.Inv) (later : List HostEvent) : (s.withPending later).Inv := h

/-- The next input is bounded: it is the head of a bounded supply, or empty. -/
theorem nextInput_length_lt {files : List (List Byte)} (h : ∀ b ∈ files, b.length < 2 ^ 64) :
    (nextInput files).length < 2 ^ 64 := by
  cases files with
  | nil => exact Nat.two_pow_pos 64
  | cons b _ => exact h b List.mem_cons_self

theorem State.Inv.clear (h : s.Inv) : (clear s).Inv := by
  obtain ⟨-, hb, -, -, hp⟩ := h
  exact ⟨clear_memory_wf, ⟨nextInput_length_lt hb.2, fun b hm => hb.2 b (List.mem_of_mem_tail hm)⟩,
    ⟨show (0 : BitVec 4) ≠ 1 by decide, Nat.zero_le 7⟩, ⟨fun _ => rfl, fun _ => rfl⟩, hp⟩

theorem CommandEffect.inv (h : CommandEffect s i t) (hs : s.Inv) : t.Inv := by
  cases h with
  | done => exact hs
  | raised _ e he => exact hs.raise he
  | shortRead => exact hs.exhaust.raise (by decide)
  | loadedFh h he => exact (hs.consume he).loadFh h
  | loadedIh h he => exact (hs.consume he).loadIh h
  | rewritten f h hf hi => exact hs.rewriteHeaders hf hi f h
  | appended _ v hl => exact hs.append hl
  | rowPacked n v he hl => exact (hs.consume he).append hl
  | indexed blue green red k => exact hs.setIdx k

/-! ### The read port -/

theorem flagBit_toNat (b : Bool) : (flagBit b).toNat = b.toNat := by cases b <;> rfl

theorem statusWord_toNat (s : State) :
    (statusWord s).toNat = s.err.toNat + 16 * s.fhV.toNat + 32 * s.ihV.toNat := by
  simp only [statusWord, toNat_append_eq, flagBit_toNat, BitVec.ofNat_eq_ofNat, BitVec.toNat_ofNat]
  omega

theorem ifValid_false {n : Nat} (v : BitVec n) : ifValid false v = 0 := rfl

theorem ifValid_true_toNat {n : Nat} (v : BitVec n) (hn : n ≤ 64) : (ifValid true v).toNat = v.toNat :=
  BitVec.toNat_setWidth_of_le hn

end Sys2Proof.Machine

namespace Sys2Proof.Machine

/-! ### The obligations -/

/-- Settles O37: resets give the cleared state, a command one of its effects, and each of these keeps the invariant. -/
theorem stepKeepsTheInvariant : Obligations.StepKeepsTheInvariant := by
  intro s t hs h
  obtain ⟨-, rfl⟩ | ⟨later, -, rfl⟩ | ⟨later, -, rfl⟩ | ⟨w, later, -, -, -, rfl⟩ | ⟨w, later, e, -, -, -, rfl⟩ |
    ⟨w, later, i, -, -, hi, -, h⟩ := step_cases h
  · exact hs
  · exact (hs.withPending later).clear
  · exact (hs.withPending later).clear
  · exact hs.withPending later
  · exact (hs.withPending later).raise (by decide)
  · exact (exec_effect hi h).inv (hs.withPending later)

/-- Settles O19: a reset keeps the palette, and no effect of another command changes it or the inputs. -/
theorem paletteAndInputAreFixedInARun : Obligations.PaletteAndInputAreFixedInARun := by
  intro s t h
  constructor
  · obtain ⟨-, rfl⟩ | ⟨later, -, rfl⟩ | ⟨later, -, rfl⟩ | ⟨w, later, -, -, -, rfl⟩ | ⟨w, later, e, -, -, -, rfl⟩ |
      ⟨w, later, i, -, -, hi, -, h⟩ := step_cases h
    · rfl
    · rfl
    · rfl
    · rfl
    · rfl
    · exact (exec_effect hi h).pal_eq
  · intro hr hc
    obtain rfl | ⟨w, later, -, rfl | rfl | ⟨i, -, he⟩⟩ := step_in_run_cases h hr hc
    · exact ⟨rfl, rfl⟩
    · exact ⟨rfl, rfl⟩
    · exact ⟨rfl, rfl⟩
    · exact he.input_eq

/-- Settles O33: the writer's word is the encoding of its command. -/
theorem writersOfRegistersAndFlags : Obligations.WritersOfRegistersAndFlags := by
  intro s t h hr hc
  obtain rfl | ⟨w, later, hp, rfl | rfl | ⟨i, hd, he⟩⟩ := step_in_run_cases h hr hc
  · simp
  · simp
  · simp
  · obtain rfl := encode_of_decode hd
    rw [hp, List.head?_cons]
    refine ⟨he.flags_stay.1, he.flags_stay.2, fun hne => ?_, fun hne => ?_, fun hne => ?_, fun hne => ?_, fun hne => ?_⟩
    · obtain rfl | rfl := he.fh_writer hne
      · exact .inl rfl
      · exact .inr rfl
    · obtain rfl | rfl := he.ih_writer hne
      · exact .inl rfl
      · exact .inr rfl
    · obtain rfl := he.fhV_writer hne
      rfl
    · obtain rfl := he.ihV_writer hne
      rfl
    · obtain ⟨blue, green, red, rfl⟩ := he.idx_writer hne
      refine ⟨_, rfl, ?_⟩
      rw [encode_quant_toNat]
      omega

/-- Settles O34: within a run `OUT` changes only by the effects of commands, each of which appends. -/
theorem outputOnlyGrows : Obligations.OutputOnlyGrows := by
  intro s t h
  refine ⟨fun hr hc => ?_, rfl⟩
  obtain rfl | ⟨w, later, -, rfl | rfl | ⟨i, -, he⟩⟩ := step_in_run_cases h hr hc
  · exact ⟨[], (List.append_nil _).symm⟩
  · exact ⟨[], (List.append_nil _).symm⟩
  · exact ⟨[], (List.append_nil _).symm⟩
  · exact he.out_eq_append

/-- Settles O35, number by number from the definition of the port. -/
theorem readPortGivesTheNumberedRegisters : Obligations.ReadPortGivesTheNumberedRegisters := by
  intro s
  refine ⟨?_, ?_, rfl, rfl, ?_, ?_, ?_, ?_, ?_⟩
  · exact (BitVec.toNat_setWidth_of_le (by decide)).trans (statusWord_toNat s)
  · exact BitVec.toNat_setWidth_of_le (by decide)
  · rintro n hn
    obtain ⟨k, rfl⟩ := Nat.exists_eq_add_of_le' hn
    rfl
  · intro hv n hn
    interval_cases n <;> simp only [readPort, hv, ifValid_false]
  · intro hv n hn hn'
    interval_cases n <;> simp only [readPort, hv, ifValid_false]
  · intro hv
    simp [readPort, hv, ifValid_true_toNat]
  · intro hv
    simp [readPort, hv, ifValid_true_toNat]

/-- Settles O9: `CLR` and the hardware reset are the one operation `clear`. -/
theorem resetAndClrGiveTheResetValues : Obligations.ResetAndClrGiveTheResetValues := by
  refine ⟨fun s file files h => ?_, fun s => ⟨nextInput s.supply, rfl⟩, fun s later h => ?_, fun s later h => ?_,
    fun s later h he => ?_, ⟨[], _, [], [], rfl, Config.palette.legal⟩⟩
  · show Host.Outcome.next (clear s) = _
    rw [clear, h]
    rfl
  · exact step_reset h
  · rw [step_command h, present_clr (decode_eq_clr_iff.2 rfl)]
    rfl
  · rw [step_command h]
    exact present_halted (mt decode_eq_clr_iff.1 (by decide)) he

/-- Settles O36, with the legality that the palette constant carries. -/
theorem invariantHoldsAtReset : Obligations.InvariantHoldsAtReset :=
  ⟨reset_memory_wf, ⟨Nat.two_pow_pos 64, fun _ hb => absurd hb List.not_mem_nil⟩, by decide,
    ⟨fun _ => rfl, fun _ => rfl⟩, Config.palette.legal⟩

end Sys2Proof.Machine

/-! SUPPORT. The bytes a command moves: what an error, a read and an append mean for `ICUR` and for
`OUT`, then the table of 20_memory.md R67, command by command. -/

namespace Sys2Proof.Machine

variable {s t : State} {reads writes : Nat}

/-! ### Errors and moved bytes -/

theorem errorCode_ne_zero (e : BmpError) : errorCode e ≠ 0 := by cases e <;> decide

/-- A row packs into `rowBytes` bytes: its pairs fill at most that many, and zeros pad the rest
(43_row_packer.md R183). -/
theorem packRow_length (pal : Palette) (px : List Color24) : (packRow pal px).length = rowBytes px.length := by
  rw [packRow, List.length_append, List.length_replicate, packPairs_length, rowBytes]
  omega

/-- From `s` to `t` a command takes `reads` bytes of `IN` and appends `writes` bytes to `OUT`, or it raises an error and
appends nothing (20_memory.md R67). -/
def MovesBytes (s : State) (reads writes : Nat) (t : State) : Prop :=
  (t.err = 0 → t.icur.toNat = s.icur.toNat + reads ∧ t.out.length = s.out.length + writes) ∧
    (t.err ≠ 0 → t.out = s.out)

/-- What ends with `ERR = 0` is held to the table's two numbers. -/
theorem movesBytes_of_err_eq_zero (he : t.err = 0) (hi : t.icur.toNat = s.icur.toNat + reads)
    (ho : t.out.length = s.out.length + writes) : MovesBytes s reads writes t :=
  ⟨fun _ => ⟨hi, ho⟩, fun hne => absurd he hne⟩

theorem raise_movesBytes (e : BmpError) : MovesBytes s reads writes (raise e s) :=
  ⟨fun he => absurd he (errorCode_ne_zero e), fun _ => rfl⟩

/-- A short read moves `ICUR` to the end of `IN`, but leaves `OUT` (20_memory.md R61). -/
theorem shortRead_movesBytes : MovesBytes s reads writes (raise .shortReadError s.exhaust) :=
  ⟨fun he => absurd he (errorCode_ne_zero .shortReadError), fun _ => rfl⟩

theorem append_movesBytes {v : List Byte} (hs : s.err = 0) : MovesBytes s 0 v.length (s.append v) :=
  movesBytes_of_err_eq_zero hs rfl (by rw [append_out, List.length_append])

/-! ### The table, command by command -/

theorem execRdFh_movesBytes (hs : s.err = 0) (h : execRdFh s = .next t) : MovesBytes s 14 0 t := by
  obtain ⟨hl, ⟨-, rfl⟩ | ⟨he, rfl⟩⟩ := execRdFh_cases h
  · exact shortRead_movesBytes
  · exact movesBytes_of_err_eq_zero hs (consume_toNat hl he) rfl

theorem execRdIh_movesBytes (hs : s.err = 0) (h : execRdIh s = .next t) : MovesBytes s 40 0 t := by
  obtain ⟨hl, ⟨-, rfl⟩ | ⟨he, rfl⟩⟩ := execRdIh_cases h
  · exact shortRead_movesBytes
  · exact movesBytes_of_err_eq_zero hs (consume_toNat hl he) rfl

theorem execChkSig_movesBytes (hs : s.err = 0) (h : execChkSig s = .next t) : MovesBytes s 0 0 t := by
  obtain ⟨-, rfl⟩ | ⟨-, -, rfl⟩ | ⟨-, -, rfl⟩ := execChkSig_cases h
  · exact raise_movesBytes _
  · exact raise_movesBytes _
  · exact movesBytes_of_err_eq_zero hs rfl rfl

theorem execChkBpp_movesBytes (hs : s.err = 0) (h : execChkBpp s = .next t) : MovesBytes s 0 0 t := by
  obtain ⟨-, rfl⟩ | ⟨-, -, rfl⟩ | ⟨-, -, rfl⟩ := execChkBpp_cases h
  · exact raise_movesBytes _
  · exact raise_movesBytes _
  · exact movesBytes_of_err_eq_zero hs rfl rfl

theorem execHdrCvt_movesBytes (hs : s.err = 0) (h : execHdrCvt s = .next t) : MovesBytes s 0 0 t := by
  obtain ⟨-, rfl⟩ | ⟨-, -, -, rfl⟩ | ⟨-, -, -, -, rfl⟩ := execHdrCvt_cases h
  · exact raise_movesBytes _
  · exact raise_movesBytes _
  · exact movesBytes_of_err_eq_zero hs rfl rfl

theorem execQuant_movesBytes {blue green red : Byte} (hs : s.err = 0) (h : execQuant blue green red s = .next t) :
    MovesBytes s 0 0 t := by
  obtain rfl := execQuant_cases h
  exact movesBytes_of_err_eq_zero hs rfl rfl

theorem execWrFh_movesBytes (hs : s.err = 0) (h : execWrFh s = .next t) : MovesBytes s 0 14 t := by
  obtain ⟨-, rfl⟩ | ⟨-, -, -, rfl⟩ := execWrFh_cases h
  · exact raise_movesBytes _
  · exact append_movesBytes hs

theorem execWrIh_movesBytes (hs : s.err = 0) (h : execWrIh s = .next t) : MovesBytes s 0 40 t := by
  obtain ⟨-, rfl⟩ | ⟨-, -, -, rfl⟩ := execWrIh_cases h
  · exact raise_movesBytes _
  · exact append_movesBytes hs

theorem execWrPal_movesBytes (hs : s.err = 0) (h : execWrPal s = .next t) : MovesBytes s 0 64 t := by
  obtain ⟨-, -, rfl⟩ := execWrPal_cases h
  exact append_movesBytes hs

/-- A row read whole holds all its pixels, so the packed row has the `rowBytes` of the width. -/
theorem execPackRow_movesBytes (hs : s.err = 0) (h : execPackRow s = .next t) :
    MovesBytes s (inRowBytes s.ih.width.toNat) (rowBytes s.ih.width.toNat) t := by
  obtain ⟨-, rfl⟩ | ⟨-, -, rfl⟩ | ⟨-, -, -, -, rfl⟩ | ⟨-, -, hl, he, -, -, rfl⟩ := execPackRow_cases h
  · exact raise_movesBytes _
  · exact raise_movesBytes _
  · exact shortRead_movesBytes
  · have hpx : (pixelsOf s.ih.width.toNat (memRead (inRowBytes s.ih.width.toNat) s)).length = s.ih.width.toNat :=
      pixelsOf_length _ _ ((Nat.le_add_right _ _).trans_eq (memRead_length he).symm)
    refine movesBytes_of_err_eq_zero hs (consume_toNat hl he) ?_
    rw [append_out, consume_out, List.length_append, packRow_length, hpx]

/-- Settles O32, row by row of the table. -/
theorem bytesEachCommandMoves : Obligations.BytesEachCommandMoves := by
  intro i s t reads writes h hs hrow
  obtain ⟨rfl, rfl, rfl⟩ | ⟨rfl, rfl, rfl⟩ | ⟨rfl | rfl | rfl | ⟨blue, green, red, rfl⟩, rfl, rfl⟩ |
    ⟨rfl, rfl, rfl⟩ | ⟨rfl, rfl, rfl⟩ | ⟨rfl, rfl, rfl⟩ | ⟨rfl, rfl, rfl⟩ := hrow
  · exact execRdFh_movesBytes hs h
  · exact execRdIh_movesBytes hs h
  · exact execChkSig_movesBytes hs h
  · exact execChkBpp_movesBytes hs h
  · exact execHdrCvt_movesBytes hs h
  · exact execQuant_movesBytes hs h
  · exact execWrFh_movesBytes hs h
  · exact execWrIh_movesBytes hs h
  · exact execWrPal_movesBytes hs h
  · exact execPackRow_movesBytes hs h

end Sys2Proof.Machine

/-! SUPPORT. Decoder and encoder as inverses: a word decodes exactly when it passes the checks of 30_encoding.md R95,
and then to the one command it encodes. The statements about the encoding follow from that. -/

namespace Sys2Proof

variable {w : Word} {i : Instr}

/-! ### Decoding gives back the encoded command -/

/-- The three bytes cut from `QUANT`'s immediate are the bytes it was put together from (30_encoding.md R93). -/
theorem quantOf_append (blue green red : Byte) : quantOf (red ++ green ++ blue) = .quant blue green red := by
  have hb := blue.isLt
  have hg := green.isLt
  have hr := red.isLt
  rw [quantOf, Instr.quant.injEq]
  refine ⟨?_, ?_, ?_⟩ <;> apply BitVec.eq_of_toNat_eq <;>
    simp only [BitVec.extractLsb'_toNat, Machine.toNat_append_eq] <;> omega

/-- Opcode 0x0A is `QUANT`, whatever the immediate (30_encoding.md R91, R94). -/
theorem decode_quantOpcode_append (imm : BitVec 24) : decode (quantOpcode ++ imm) = .ok (quantOf imm) := by
  rw [decode, if_pos (opcodeField_append _ _), imm24Field_append]

theorem decode_encode (i : Instr) : decode (encode i) = .ok i := by
  cases i with
  | quant blue green red => exact (decode_quantOpcode_append _).trans (congrArg _ (quantOf_append blue green red))
  | _ => rfl

/-- A command has one word, and a word is of one command (30_encoding.md R94, R96). -/
theorem decode_eq_ok_iff : decode w = .ok i ↔ encode i = w :=
  ⟨encode_of_decode, fun h => h ▸ decode_encode i⟩

/-- A word is known by its value. -/
theorem decode_of_toNat_eq (i : Instr) (h : w.toNat = (encode i).toNat) : decode w = .ok i :=
  decode_eq_ok_iff.2 (BitVec.eq_of_toNat_eq h.symm)

/-! ### The legal words are the encoded commands -/

/-- The two checks on a word, in arithmetic on its value (30_encoding.md R95). -/
theorem wordLegal_iff : wordLegal w = true ↔ w.toNat / 2 ^ 24 = 0x0A ∨
    w.toNat % 2 ^ 24 = 0 ∧ (1 ≤ w.toNat / 2 ^ 24 ∧ w.toNat / 2 ^ 24 ≤ 9 ∨ w.toNat / 2 ^ 24 = 0x0F) := by
  simp only [wordLegal, opcodeAssigned, immediateAllowed, Bool.and_eq_true, Bool.or_eq_true, decide_eq_true_eq,
    beq_iff_eq]
  omega

open Laws in
theorem wordLegal_encode (i : Instr) : wordLegal (encode i) = true := by
  cases i with
  | rdFh => exact EncodeLegal.rdFh.1
  | rdIh => exact EncodeLegal.rdIh.1
  | chkSig => exact EncodeLegal.chkSig.1
  | chkBpp => exact EncodeLegal.chkBpp.1
  | hdrCvt => exact EncodeLegal.hdrCvt.1
  | wrFh => exact EncodeLegal.wrFh.1
  | wrIh => exact EncodeLegal.wrIh.1
  | wrPal => exact EncodeLegal.wrPal.1
  | packRow => exact EncodeLegal.packRow.1
  | quant blue green red => exact (EncodeLegal.quant blue green red).1
  | clr => exact EncodeLegal.clr.1

/-- A word of opcode 0x0A is the word of the pixel in its immediate. -/
theorem encode_quantOf_imm24Field (h : w.toNat / 2 ^ 24 = 0x0A) : encode (quantOf (imm24Field w)) = w := by
  have hop : opcodeField w = quantOpcode := BitVec.eq_of_toNat_eq ((opcodeField_toNat w).trans h)
  calc encode (quantOf (imm24Field w))
      _ = quantOpcode ++ (quantOf (imm24Field w)).immediate := rfl
      _ = w := by rw [immediate_quantOf, ← hop, fields_append]

/-- The rows of the opcode map leave out no `CMD0` opcode (30_encoding.md R92). -/
theorem exists_mem_cmd0Rows : ∀ op : Byte, 1 ≤ op.toNat ∧ op.toNat ≤ 9 ∨ op.toNat = 0x0F →
    ∃ r ∈ cmd0Rows, r.1 = op := by decide

theorem exists_encode_of_wordLegal (h : wordLegal w = true) : ∃ i, encode i = w := by
  obtain hop | ⟨himm, hop⟩ := wordLegal_iff.1 h
  · exact ⟨_, encode_quantOf_imm24Field hop⟩
  · rw [← opcodeField_toNat] at hop
    obtain ⟨⟨op, i⟩, hr, rfl⟩ := exists_mem_cmd0Rows _ hop
    obtain ⟨hopcode, himmediate⟩ := opcode_immediate_of_mem_cmd0Rows _ hr
    have h0 : imm24Field w = 0 := BitVec.eq_of_toNat_eq ((imm24Field_toNat w).trans himm)
    exact ⟨i, by rw [encode, hopcode, himmediate, ← h0, fields_append]⟩

/-- The decoder refuses exactly the words that fail a check (30_encoding.md R95). -/
theorem decode_error_iff : (∃ e, decode w = .error e) ↔ wordLegal w = false := by
  constructor
  · rintro ⟨e, he⟩
    refine Bool.eq_false_iff.2 fun hw => ?_
    obtain ⟨i, rfl⟩ := exists_encode_of_wordLegal hw
    rw [decode_encode] at he
    cases he
  · intro hw
    cases hd : decode w with
    | error e => exact ⟨e, rfl⟩
    | ok i =>
      rw [← encode_of_decode hd, wordLegal_encode] at hw
      cases hw

/-! ### The statements -/

/-- Settles O3: every command of the syntax is well formed, so the round trip has no exception. -/
theorem decodeOfEncodeIsTheInstruction : Obligations.DecodeOfEncodeIsTheInstruction :=
  fun i _ => decode_encode i

/-- Settles O4. -/
theorem encodeOfDecodeIsTheWord : Obligations.EncodeOfDecodeIsTheWord :=
  fun _ _ => encode_of_decode

/-- Settles O2: each legal word is the word of the named command, and all others fail a check. -/
theorem decodingFollowsTheOpcodeMap : Obligations.DecodingFollowsTheOpcodeMap := by
  intro w
  refine ⟨fun h => ?_, decode_of_toNat_eq .rdFh, decode_of_toNat_eq .rdIh, decode_of_toNat_eq .chkSig,
    decode_of_toNat_eq .chkBpp, decode_of_toNat_eq .hdrCvt, decode_of_toNat_eq .wrFh, decode_of_toNat_eq .wrIh,
    decode_of_toNat_eq .wrPal, decode_of_toNat_eq .packRow, decode_of_toNat_eq .clr, fun hq hc => ?_⟩
  · have hw := encode_quantOf_imm24Field h
    refine ⟨_, _, _, decode_eq_ok_iff.2 hw, ?_⟩
    have hv := congrArg BitVec.toNat hw
    rw [quantOf, encode_quant_toNat] at hv
    omega
  · exact decode_error_iff.2 (Bool.eq_false_iff.2 fun hw => (wordLegal_iff.1 hw).elim hq hc)

/-- Settles O5: the decoder agrees with the two checks, and the sequencer raises or ignores what it refuses. -/
theorem illegalWordsRaiseIllegalCommand : Obligations.IllegalWordsRaiseIllegalCommand := by
  intro w s later hp
  rw [Machine.step_command hp]
  refine ⟨decode_error_iff, wordLegal_iff, fun hw he => ?_, fun hw he => ?_⟩ <;>
    obtain ⟨e, hd⟩ := decode_error_iff.2 hw
  · exact Machine.present_illegal hd he
  · exact Machine.present_halted (by simp [hd]) he

/-- Settles O1: six words of commands, evaluated, and the two reasons to refuse one. -/
theorem tableWordsDecode : Obligations.TableWordsDecode :=
  ⟨decode_encode .rdFh, decode_encode .hdrCvt, decode_encode .wrPal, decode_encode .packRow,
    decode_encode (.quant 255 128 0), decode_encode .clr, rfl, rfl⟩

end Sys2Proof

/-! SUPPORT. The header codec (40_header_codec.md): what it reads and appends as slices of byte sequences, where its
commands go, and what the commands that read, check, convert and store leave unchanged. -/

namespace Sys2Proof.Machine

variable {s t : State} {n k : Nat}

/-! ### Bytes read and bytes appended -/

/-- A read at the end of `before` gives the bytes that stand there. -/
theorem memRead_of_input_eq {before v after : List Byte} (h : s.input = before ++ v ++ after)
    (hc : s.icur.toNat = before.length) : memRead v.length s = v := by
  simp [memRead, h, hc]

/-- A 16-bit field of the bytes read has the value of its bytes in `IN`. -/
theorem le16At_memRead_toNat (he : s.icur.toNat + n ≤ s.input.length) (hk : k + 2 ≤ n) :
    (le16At (memRead n s) k).toNat = leValue (slice s.input (s.icur.toNat + k) 2) := by
  rw [le16At_toNat (by rwa [memRead_length he]), memRead_eq_slice, slice_slice hk]

/-- A 32-bit field of the bytes read has the value of its bytes in `IN`. -/
theorem le32At_memRead_toNat (he : s.icur.toNat + n ≤ s.input.length) (hk : k + 4 ≤ n) :
    (le32At (memRead n s) k).toNat = leValue (slice s.input (s.icur.toNat + k) 4) := by
  rw [le32At_toNat (by rwa [memRead_length he]), memRead_eq_slice, slice_slice hk]

/-- The two bytes of a 16-bit value determine it and are determined by it. -/
theorem append_byte_eq_iff {b0 b1 c0 c1 : Byte} : b1 ++ b0 = c1 ++ c0 ↔ b0 = c0 ∧ b1 = c1 := by
  constructor
  · intro h
    have hb := congrArg le16 h
    rw [le16_append, le16_append] at hb
    simpa using hb
  · rintro ⟨rfl, rfl⟩
    rfl

/-- A row read whole packs into `rowBytes` bytes: all its pixels are there (43_row_packer.md R186). -/
theorem packRow_memRead_length (pal : Palette) {w : Nat} (he : s.icur.toNat + inRowBytes w ≤ s.input.length) :
    (packRow pal (pixelsOf w (memRead (inRowBytes w) s))).length = rowBytes w := by
  rw [packRow_length, pixelsOf_length _ _ ((Nat.le_add_right _ _).trans_eq (memRead_length he).symm)]

/-! ### Where the checks and the conversion go -/

theorem execHdrCvt_of_uninit (h : s.fhV = false ∨ s.ihV = false) : execHdrCvt s = .next (raise .uninitError s) := by
  unfold execHdrCvt
  cases hf : s.fhV
  · exact needFileHeader_of_invalid hf
  · rw [needFileHeader_of_valid hf]
    exact needInfoHeader_of_invalid (h.resolve_left (by simp [hf]))

theorem execHdrCvt_of_negative (hf : s.fhV = true) (hi : s.ihV = true)
    (h : s.ih.width.toInt < 0 ∨ s.ih.height.toInt < 0) : execHdrCvt s = .next (raise .geometryError s) := by
  unfold execHdrCvt
  rw [needFileHeader_of_valid hf, needInfoHeader_of_valid hi, widthOf_eq, heightOf_eq, if_pos h]

theorem execHdrCvt_of_nonneg {W H : Nat} (hf : s.fhV = true) (hi : s.ihV = true) (hw : s.ih.width.toInt = W)
    (hh : s.ih.height.toInt = H) :
    execHdrCvt s = .next (s.rewriteHeaders (convertFileHeader W H s.fh) (convertInfoHeader W H s.ih)) := by
  unfold execHdrCvt
  rw [needFileHeader_of_valid hf, needInfoHeader_of_valid hi, widthOf_eq, heightOf_eq, hw, hh, if_neg (by omega)]
  rfl

theorem execChkSig_of_match (hv : s.fhV = true) (hg : s.fh.signature = 0x4D42) : execChkSig s = .next s := by
  unfold execChkSig
  rw [needFileHeader_of_valid hv]
  exact if_pos hg

theorem execChkSig_of_mismatch (hv : s.fhV = true) (hg : s.fh.signature ≠ 0x4D42) :
    execChkSig s = .next (raise .signatureError s) := by
  unfold execChkSig
  rw [needFileHeader_of_valid hv]
  exact if_neg hg

theorem execChkBpp_of_match (hv : s.ihV = true) (hd : s.ih.bitsPerPixel = 24) : execChkBpp s = .next s := by
  unfold execChkBpp
  rw [needInfoHeader_of_valid hv]
  exact if_pos hd

theorem execChkBpp_of_mismatch (hv : s.ihV = true) (hd : s.ih.bitsPerPixel ≠ 24) :
    execChkBpp s = .next (raise .depthError s) := by
  unfold execChkBpp
  rw [needInfoHeader_of_valid hv]
  exact if_neg hd

/-! ### What the commands that store nothing leave unchanged -/

theorem execRdFh_frame (h : execRdFh s = .next t) :
    t = { s with fh := t.fh, fhV := t.fhV, icur := t.icur, err := t.err } := by
  obtain ⟨-, ⟨-, rfl⟩ | ⟨-, rfl⟩⟩ := execRdFh_cases h
  · rfl
  · rfl

theorem execRdIh_frame (h : execRdIh s = .next t) :
    t = { s with ih := t.ih, ihV := t.ihV, icur := t.icur, err := t.err } := by
  obtain ⟨-, ⟨-, rfl⟩ | ⟨-, rfl⟩⟩ := execRdIh_cases h
  · rfl
  · rfl

theorem execChkSig_frame (h : execChkSig s = .next t) : t = { s with err := t.err } := by
  obtain ⟨-, rfl⟩ | ⟨-, -, rfl⟩ | ⟨-, -, rfl⟩ := execChkSig_cases h
  · rfl
  · rfl
  · rfl

theorem execChkBpp_frame (h : execChkBpp s = .next t) : t = { s with err := t.err } := by
  obtain ⟨-, rfl⟩ | ⟨-, -, rfl⟩ | ⟨-, -, rfl⟩ := execChkBpp_cases h
  · rfl
  · rfl
  · rfl

theorem execHdrCvt_frame (h : execHdrCvt s = .next t) :
    t = { s with
      fh := { s.fh with fileSize := t.fh.fileSize, pixelDataOffset := t.fh.pixelDataOffset }
      ih := { s.ih with bitsPerPixel := t.ih.bitsPerPixel, imageSize := t.ih.imageSize }
      err := t.err } := by
  obtain ⟨-, rfl⟩ | ⟨-, -, -, rfl⟩ | ⟨-, -, -, -, rfl⟩ := execHdrCvt_cases h
  · rfl
  · rfl
  · rfl

theorem execQuant_frame {blue green red : Byte} (h : execQuant blue green red s = .next t) :
    t = { s with idx := t.idx } := by
  obtain rfl := execQuant_cases h
  rfl

/-! ### What the commands that store leave unchanged -/

/-- From `s` to `t` at most `n` bytes are appended to `OUT`, and nothing changes but `OUT`, the two cursors and `ERR`
(20_memory.md R62). -/
def StoresAtMost (s : State) (n : Nat) (t : State) : Prop :=
  t = { s with out := t.out, ocur := t.ocur, icur := t.icur, err := t.err } ∧
    ∃ v : List Byte, v.length ≤ n ∧ t.out = s.out ++ v

theorem raise_storesAtMost (e : BmpError) : StoresAtMost s n (raise e s) :=
  ⟨rfl, [], Nat.zero_le n, (List.append_nil _).symm⟩

theorem shortRead_storesAtMost : StoresAtMost s n (raise .shortReadError s.exhaust) :=
  ⟨rfl, [], Nat.zero_le n, (List.append_nil _).symm⟩

theorem append_storesAtMost {v : List Byte} (hn : v.length ≤ n) : StoresAtMost s n (s.append v) :=
  ⟨rfl, v, hn, rfl⟩

theorem consume_append_storesAtMost {v : List Byte} (hn : v.length ≤ n) :
    StoresAtMost s n ((s.consume k).append v) :=
  ⟨rfl, v, hn, rfl⟩

/-- Outside the `n` bytes from the end of the old `OUT` on, every byte reads as before. -/
theorem StoresAtMost.out_getElem?_eq (h : StoresAtMost s n t) {a : Nat}
    (ha : a < s.out.length ∨ s.out.length + n ≤ a) : t.out[a]? = s.out[a]? := by
  obtain ⟨-, v, hv, ho⟩ := h
  rw [ho]
  obtain ha | ha := ha
  · exact List.getElem?_append_left ha
  · rw [List.getElem?_eq_none (by rw [List.length_append]; omega), List.getElem?_eq_none (by omega)]

theorem execWrFh_stores (h : execWrFh s = .next t) : StoresAtMost s 14 t ∧ t.icur = s.icur := by
  obtain ⟨-, rfl⟩ | ⟨-, -, -, rfl⟩ := execWrFh_cases h
  · exact ⟨raise_storesAtMost _, rfl⟩
  · exact ⟨append_storesAtMost (packFileHeader_length _).le, rfl⟩

theorem execWrIh_stores (h : execWrIh s = .next t) : StoresAtMost s 40 t ∧ t.icur = s.icur := by
  obtain ⟨-, rfl⟩ | ⟨-, -, -, rfl⟩ := execWrIh_cases h
  · exact ⟨raise_storesAtMost _, rfl⟩
  · exact ⟨append_storesAtMost (packInfoHeader_length _).le, rfl⟩

theorem execWrPal_stores (h : execWrPal s = .next t) : StoresAtMost s 64 t ∧ t.icur = s.icur := by
  obtain ⟨-, -, rfl⟩ := execWrPal_cases h
  exact ⟨append_storesAtMost (paletteBlock_length _).le, rfl⟩

theorem execPackRow_stores (h : execPackRow s = .next t) : StoresAtMost s (rowBytes s.ih.width.toNat) t := by
  obtain ⟨-, rfl⟩ | ⟨-, -, rfl⟩ | ⟨-, -, -, -, rfl⟩ | ⟨-, -, -, he, -, -, rfl⟩ := execPackRow_cases h
  · exact raise_storesAtMost _
  · exact raise_storesAtMost _
  · exact shortRead_storesAtMost
  · exact consume_append_storesAtMost (packRow_memRead_length _ he).le

end Sys2Proof.Machine

namespace Sys2Proof.Machine

/-! ### The obligations -/

/-- Settles O10: the read gives the 14 bytes at the cursor, and each field is the concatenation of its own. -/
theorem rdFhLoadsTheFileHeader : Obligations.RdFhLoadsTheFileHeader := by
  intro s hl
  refine ⟨fun before after b0 b1 b2 b3 b4 b5 b6 b7 b8 b9 b10 b11 b12 b13 hin hc => ?_, execRdFh_of_short hl⟩
  have hread : memRead 14 s = [b0, b1, b2, b3, b4, b5, b6, b7, b8, b9, b10, b11, b12, b13] :=
    memRead_of_input_eq hin hc
  have he : s.icur.toNat + 14 ≤ s.input.length := by
    simp only [hin, hc, List.length_append, List.length_cons, List.length_nil]
    omega
  have hexec := execRdFh_of_enough hl he
  rw [hread] at hexec
  exact hexec

/-- Settles O11: each field of the bytes read has the value of its bytes in `IN`. -/
theorem rdIhLoadsTheInfoHeader : Obligations.RdIhLoadsTheInfoHeader := by
  intro s hl
  refine ⟨fun he => ⟨unpackInfoHeader (memRead 40 s), execRdIh_of_enough hl he, ?_⟩, execRdIh_of_short hl⟩
  have h16 (k : Nat) (hk : k + 2 ≤ 40) := le16At_memRead_toNat he hk
  have h32 (k : Nat) (hk : k + 4 ≤ 40) := le32At_memRead_toNat he hk
  exact ⟨h32 0 (by decide), h32 4 (by decide), h32 8 (by decide), h16 12 (by decide), h16 14 (by decide),
    h32 16 (by decide), h32 20 (by decide), h32 24 (by decide), h32 28 (by decide), h32 32 (by decide),
    h32 36 (by decide)⟩

/-- Settles O12: each slice of the record is the little-endian form of its register. -/
theorem wrFhAppendsTheFileHeader : Obligations.WrFhAppendsTheFileHeader := by
  intro s
  refine ⟨fun hv => needFileHeader_of_invalid hv, fun hv hw hl =>
    ⟨packFileHeader s.fh, execWrFh_of_valid hv hw hl, packFileHeader_length _, ?_⟩⟩
  exact ⟨leValue_le16 s.fh.signature, leValue_le32 s.fh.fileSize, leValue_le16 s.fh.reserved1,
    leValue_le16 s.fh.reserved2, leValue_le32 s.fh.pixelDataOffset⟩

/-- Settles O13: each slice of the record is the little-endian form of its register. -/
theorem wrIhAppendsTheInfoHeader : Obligations.WrIhAppendsTheInfoHeader := by
  intro s
  refine ⟨fun hv => needInfoHeader_of_invalid hv, fun hv hw hl =>
    ⟨packInfoHeader s.ih, execWrIh_of_valid hv hw hl, packInfoHeader_length _, ?_⟩⟩
  exact ⟨leValue_le32 s.ih.headerSize, leValue_le32 s.ih.width, leValue_le32 s.ih.height, leValue_le16 s.ih.planes,
    leValue_le16 s.ih.bitsPerPixel, leValue_le32 s.ih.compression, leValue_le32 s.ih.imageSize,
    leValue_le32 s.ih.xPelsPerMeter, leValue_le32 s.ih.yPelsPerMeter, leValue_le32 s.ih.colorsUsed,
    leValue_le32 s.ih.colorsImportant⟩

/-- Settles O14: packing undoes unpacking on the record that was read. -/
theorem headerReadThenWriteKeepsEveryByte : Obligations.HeaderReadThenWriteKeepsEveryByte := by
  intro s hl hw hb
  refine ⟨fun he => ⟨_, _, execRdFh_of_enough hl he, execWrFh_of_valid rfl hw ?_, ?_⟩,
    fun he => ⟨_, _, execRdIh_of_enough hl he, execWrIh_of_valid rfl hw hb, ?_⟩⟩
  · show s.out.length + 14 < 2 ^ 64
    omega
  · show s.out ++ packFileHeader (unpackFileHeader (memRead 14 s)) = _
    rw [pack_unpack_fileHeader (memRead_length he), memRead_eq_slice]
  · show s.out ++ packInfoHeader (unpackInfoHeader (memRead 40 s)) = _
    rw [pack_unpack_infoHeader (memRead_length he), memRead_eq_slice]

/-- Settles O17: the three outcomes of the conversion, and the new registers as numbers modulo 2^32. -/
theorem hdrCvtRewritesFourRegisters : Obligations.HdrCvtRewritesFourRegisters := by
  intro s
  refine ⟨execHdrCvt_of_uninit, execHdrCvt_of_negative, fun W H hf hi hw hh =>
    ⟨_, _, _, execHdrCvt_of_nonneg hf hi hw hh, ?_, ?_, ?_⟩⟩
  · exact BitVec.toNat_ofNat _ _
  · exact BitVec.toNat_add _ _
  · exact BitVec.toNat_ofNat _ _

/-- Settles O30: each command's frame, under which `OUT` and `IN` are those of before. -/
theorem frameOfCommandsThatStoreNothing : Obligations.FrameOfCommandsThatStoreNothing := by
  intro i s t h
  refine ⟨?_, ?_, ?_, ?_, ?_, fun hi => ?_⟩
  · rintro (rfl | rfl)
    · exact execChkSig_frame h
    · exact execChkBpp_frame h
  · rintro blue green red rfl
    exact execQuant_frame h
  · rintro rfl
    exact execRdFh_frame h
  · rintro rfl
    exact execRdIh_frame h
  · rintro rfl
    exact execHdrCvt_frame h
  · have ho : t.out = s.out := by
      obtain rfl | rfl | rfl | rfl | rfl | ⟨blue, green, red, rfl⟩ := hi
      · exact (congrArg State.out (execChkSig_frame h) :)
      · exact (congrArg State.out (execChkBpp_frame h) :)
      · exact (congrArg State.out (execRdFh_frame h) :)
      · exact (congrArg State.out (execRdIh_frame h) :)
      · exact (congrArg State.out (execHdrCvt_frame h) :)
      · exact (congrArg State.out (execQuant_frame h) :)
    have hclr : i ≠ .clr := by
      rintro rfl
      simp at hi
    rw [ho, (exec_effect hclr h).input_eq.1]
    exact ⟨fun _ => rfl, fun _ => rfl⟩

/-- Settles O31: each of the four commands appends at most its own number of bytes, and `OCUR` is where they begin. -/
theorem frameOfCommandsThatStore : Obligations.FrameOfCommandsThatStore := by
  intro i s t n h hw hi
  have hs : StoresAtMost s n t ∧ (i ≠ .packRow → t.icur = s.icur) := by
    obtain ⟨rfl, rfl⟩ | ⟨rfl, rfl⟩ | ⟨rfl, rfl⟩ | ⟨rfl, rfl⟩ := hi
    · exact (execWrFh_stores h).imp_right fun hc _ => hc
    · exact (execWrIh_stores h).imp_right fun hc _ => hc
    · exact (execWrPal_stores h).imp_right fun hc _ => hc
    · exact ⟨execPackRow_stores h, absurd rfl⟩
  obtain ⟨hs, hc⟩ := hs
  rw [hw]
  exact ⟨hs.1, hc, fun a ha => hs.out_getElem?_eq ha⟩

/-- Settles O15: the check's three outcomes; with `ERR = 0` an error would be seen, so a state left as it was means that
the signature is the two bytes 0x42, 0x4D. -/
theorem chkSigChecksTheSignature : Obligations.ChkSigChecksTheSignature := by
  intro s
  refine ⟨execChkSig_of_match, execChkSig_of_mismatch, fun hv => needFileHeader_of_invalid hv,
    fun b0 b1 he hv hb => ?_⟩
  have hbytes : s.fh.signature = 0x4D42 ↔ b0 = 0x42 ∧ b1 = 0x4D := by
    rw [hb]
    exact append_byte_eq_iff (c1 := 0x4D) (c0 := 0x42)
  rw [← hbytes]
  refine ⟨fun h => ?_, execChkSig_of_match hv⟩
  by_contra hg
  have hraise : Host.Outcome.next s = .next (raise .signatureError s) := h.symm.trans (execChkSig_of_mismatch hv hg)
  injection hraise with hraise
  exact errorCode_ne_zero .signatureError ((congrArg State.err hraise).symm.trans he)

/-- Settles O16: the check's three outcomes, and the word of `CHK_BPP` is none of `INSPECT`'s. -/
theorem chkBppChecksTheDepth : Obligations.ChkBppChecksTheDepth := by
  refine ⟨fun s => ⟨execChkBpp_of_match, execChkBpp_of_mismatch, fun hv => needInfoHeader_of_invalid hv⟩,
    fun w hw hd => ?_⟩
  obtain rfl := decode_eq_ok_iff.1 hd
  exact absurd hw (by decide)

end Sys2Proof.Machine

/-! SUPPORT. The palette table: where its entries stand in the palette block, and which index the quantizer gives a
pixel whose nearest entry is known. -/

namespace Sys2Proof.Machine

/-- Entry `i` of the palette block is the four bytes at offset `4 * i` (30_encoding.md R100, R101). -/
theorem slice_paletteBlock (pal : Palette) (i : Fin 16) :
    slice (paletteBlock pal) (4 * i) 4 = paletteEntryBytes pal[i] := by
  fin_cases i <;> rfl

/-- `nearestIndex` gives the lowest index among the entries at the minimum distance (42_quantizer.md R171, R172). -/
theorem nearestIndex_spec (pal : Palette) (p : Color24) :
    ∃ k : Fin 16, nearestIndex pal p = BitVec.ofNat 4 k ∧
      (∀ j : Fin 16, dist2 p pal[k] ≤ dist2 p pal[j]) ∧ ∀ j < k, dist2 p pal[k] < dist2 p pal[j] := by
  have hentries : [pal[0]] ++ pal.toList.tail = pal.toList := by
    rw [← List.drop_one]
    exact List.cons_getElem_drop_succ (h := by simp)
  have hfirst (j : Nat) (f : Color24) (hf : [pal[0]][j]? = some f) :
      dist2 p pal[0] ≤ dist2 p f ∧ (j < 0 → dist2 p pal[0] < dist2 p f) := by
    obtain rfl := List.mem_singleton.1 (List.mem_of_getElem? hf)
    exact ⟨le_rfl, fun h => absurd h j.not_lt_zero⟩
  obtain ⟨g, hg, hmin⟩ := nearestScan_spec p pal.toList.tail [pal[0]] 0 pal[0] rfl hfirst
  rw [hentries] at hg hmin
  obtain ⟨hk, rfl⟩ := List.getElem?_eq_some_iff.1 hg
  have hentry (j : Fin 16) : pal.toList[j.val]? = some pal[j] := by simp
  exact ⟨⟨_, by simpa using hk⟩, rfl, fun j => (hmin j _ (hentry j)).1, fun j => (hmin j _ (hentry j)).2⟩

/-- Only one index is the lowest at the minimum distance, so an index known to be is the result. -/
theorem nearestIndex_eq_of_lowest_nearest {pal : Palette} {p : Color24} {k : Fin 16}
    (hmin : ∀ j : Fin 16, dist2 p pal[k] ≤ dist2 p pal[j]) (hlow : ∀ j < k, dist2 p pal[k] < dist2 p pal[j]) :
    nearestIndex pal p = BitVec.ofNat 4 k := by
  obtain ⟨m, hm, hmin', hlow'⟩ := nearestIndex_spec pal p
  suffices k = m by rw [hm, this]
  exact le_antisymm (not_lt.1 fun h => (hmin' k).not_gt (hlow m h)) (not_lt.1 fun h => (hmin m).not_gt (hlow' k h))

/-- Black is nearest to entry 0 in a legal palette, and no index is lower (41_palette.md R162). -/
theorem nearestIndex_allZero {pal : Palette} (h : pal.Legal) : nearestIndex pal Color24.allZero = 0 :=
  nearestIndex_eq_of_lowest_nearest (k := 0) h.1 fun j hj => absurd hj j.not_lt_zero

/-- White is strictly nearer to entry 15 of a legal palette than to all before it (41_palette.md R162). -/
theorem nearestIndex_allOnes {pal : Palette} (h : pal.Legal) : nearestIndex pal Color24.allOnes = 15 := by
  have hlow (j : Fin 16) (hj : j < Fin.last 15) :
      dist2 Color24.allOnes pal[Fin.last 15] < dist2 Color24.allOnes pal[j] :=
    h.2 (j.castLT hj)
  refine nearestIndex_eq_of_lowest_nearest (k := Fin.last 15) (fun j => ?_) hlow
  obtain rfl | hj := (Fin.le_last j).eq_or_lt
  · exact le_rfl
  · exact (hlow j hj).le

/-! ### The obligations -/

/-- Settles O18: the bytes appended are the palette block, whose slices are the entries. -/
theorem wrPalAppendsThePaletteBlock : Obligations.WrPalAppendsThePaletteBlock := by
  intro s hw hl
  exact ⟨paletteBlock s.pal, execWrPal_of_wf hw hl, paletteBlock_length _, slice_paletteBlock s.pal⟩

/-- Settles O23: `QUANT` writes the nearest index, and R162 fixes it for these two pixels. -/
theorem quantOfBlackIsZeroAndOfWhiteFifteen : Obligations.QuantOfBlackIsZeroAndOfWhiteFifteen := by
  intro s h
  constructor
  · exact congrArg (fun k => Host.Outcome.next (s.setIdx k)) (nearestIndex_allZero h)
  · exact congrArg (fun k => Host.Outcome.next (s.setIdx k)) (nearestIndex_allOnes h)

end Sys2Proof.Machine

/-! SUPPORT. The quantizer: the squared distance as a sum of squares, which index `QUANT` writes, and the order of the
real distances (42_quantizer.md R170 to R174). -/

namespace Sys2Proof.Machine

/-! ### The squared distance -/

/-- The square of a component difference is at most 255^2 (42_quantizer.md R170). -/
theorem componentDiff_sq_le (a b : Byte) : componentDiff a b ^ 2 ≤ 65025 :=
  have ⟨hlo, hhi⟩ := componentDiff_bounds a b
  sq_le_sq' (b := 255) hlo hhi

theorem dist2_eq_sum_componentDiff_sq (p e : Color24) :
    dist2 p e = componentDiff p.blue e.blue ^ 2 + componentDiff p.green e.green ^ 2
      + componentDiff p.red e.red ^ 2 := by
  simp only [dist2, pow_two]

theorem dist2_nonneg (p e : Color24) : 0 ≤ dist2 p e := by
  rw [dist2_eq_sum_componentDiff_sq]
  positivity

/-- Three squares of at most 65025 each (42_quantizer.md R170). -/
theorem dist2_le (p e : Color24) : dist2 p e ≤ 195075 := by
  rw [dist2_eq_sum_componentDiff_sq]
  linarith [componentDiff_sq_le p.blue e.blue, componentDiff_sq_le p.green e.green, componentDiff_sq_le p.red e.red]

/-! ### The index `QUANT` writes -/

/-- `nearestIndex` gives the one index that is lowest at the minimum distance (42_quantizer.md R171, R172). -/
theorem nearestIndex_eq_iff {pal : Palette} {p : Color24} {k : Fin 16} :
    nearestIndex pal p = BitVec.ofNat 4 k ↔
      (∀ j : Fin 16, dist2 p pal[k] ≤ dist2 p pal[j]) ∧ ∀ j < k, dist2 p pal[k] < dist2 p pal[j] := by
  constructor
  · intro hk
    obtain ⟨m, hm, hmin, hlow⟩ := nearestIndex_spec pal p
    obtain rfl : k = m := Fin.ext (by simpa using congrArg BitVec.toNat (hk.symm.trans hm))
    exact ⟨hmin, hlow⟩
  · rintro ⟨hmin, hlow⟩
    exact nearestIndex_eq_of_lowest_nearest hmin hlow

/-- `QUANT` gives the state with `k` in `IDX` exactly when `k` is the nearest index (42_quantizer.md R174). -/
theorem exec_quant_eq_next_iff {blue green red : Byte} {s : State} {k : BitVec 4} :
    exec (.quant blue green red) s = .next { s with idx := k } ↔ nearestIndex s.pal ⟨blue, green, red⟩ = k := by
  constructor
  · intro h
    exact congrArg State.idx (execQuant_cases h).symm
  · rintro rfl
    rfl

/-! ### The real distance -/

/-- The squared distance keeps its form under the cast to the reals, where R173 compares square roots. -/
theorem cast_dist2 (p e : Color24) :
    (dist2 p e : ℝ) = ((p.blue.toNat : ℝ) - e.blue.toNat) ^ 2 + ((p.green.toNat : ℝ) - e.green.toNat) ^ 2
      + ((p.red.toNat : ℝ) - e.red.toNat) ^ 2 := by
  simp [dist2_eq_sum_componentDiff_sq, componentDiff]

/-- The square root keeps the order of squared distances, which are not negative (42_quantizer.md R173). -/
theorem sqrt_dist2_le_iff {p e f : Color24} : √(dist2 p e : ℝ) ≤ √(dist2 p f : ℝ) ↔ dist2 p e ≤ dist2 p f := by
  rw [Real.sqrt_le_sqrt_iff (mod_cast dist2_nonneg p f), Int.cast_le]

theorem sqrt_dist2_lt_iff {p e f : Color24} : √(dist2 p e : ℝ) < √(dist2 p f : ℝ) ↔ dist2 p e < dist2 p f := by
  rw [Real.sqrt_lt_sqrt_iff (mod_cast dist2_nonneg p e), Int.cast_lt]

/-! ### The obligations -/

/-- Settles O20: the bound of one component difference, three times. -/
theorem squaredDistanceIsExactAndBounded : Obligations.SquaredDistanceIsExactAndBounded := by
  constructor
  · intro a b
    obtain ⟨hlo, hhi⟩ := componentDiff_bounds a b
    exact ⟨hlo, hhi, componentDiff_sq_le a b⟩
  · intro p e
    exact ⟨dist2_eq_sum_componentDiff_sq p e, dist2_nonneg p e, dist2_le p e,
      (dist2_le p e).trans_lt (by norm_num)⟩

/-- Settles O21: the index written is that of `nearestIndex`, and the distance of the statement is `dist2`. -/
theorem quantGivesTheLowestNearestIndex : Obligations.QuantGivesTheLowestNearestIndex := by
  intro blue green red s d
  have hd (j : Fin 16) : dist2 ⟨blue, green, red⟩ s.pal[j] = d j := dist2_eq_sum_componentDiff_sq _ _
  obtain ⟨k, hk, hnearest⟩ := nearestIndex_spec s.pal ⟨blue, green, red⟩
  simp only [hd] at hnearest
  exact ⟨k, exec_quant_eq_next_iff.2 hk, hnearest⟩

/-- Settles O22: the square root is strictly increasing, so both distances have the same lowest nearest index. -/
theorem quantAgreesWithEuclideanDistance : Obligations.QuantAgreesWithEuclideanDistance := by
  intro blue green red s k d
  have hd (j : Fin 16) : d j = √(dist2 ⟨blue, green, red⟩ s.pal[j] : ℝ) := by
    simp only [d, cast_dist2]
  simp only [hd, sqrt_dist2_le_iff, sqrt_dist2_lt_iff]
  exact exec_quant_eq_next_iff.trans nearestIndex_eq_iff

end Sys2Proof.Machine

/-! SUPPORT. The row packer (43_row_packer.md): which bytes of a packed row its pixels and its padding are, and which
bytes of a row read are its pixels. -/

namespace Sys2Proof.Machine

variable {s : State} {k c : Nat}

/-! ### The bytes of a packed row -/

/-- Pixels `2k` and `2k + 1` make packed byte `k`: each byte takes two pixels off the row (43_row_packer.md R181). -/
theorem packPairs_getElem?_of_pair (pal : Palette) {left right : Color24} : ∀ (px : List Color24) (k : Nat),
    px[2 * k]? = some left → px[2 * k + 1]? = some right →
      (packPairs pal px)[k]? = some (packedByte (nearestIndex pal left) (nearestIndex pal right))
  | _ :: _ :: _, 0, hl, hr => by
    obtain rfl := Option.some.inj hl
    obtain rfl := Option.some.inj hr
    rfl
  | _ :: _ :: rest, k + 1, hl, hr => packPairs_getElem?_of_pair pal rest k hl hr

/-- In a row of `2k + 1` pixels the last is alone in packed byte `k` (43_row_packer.md R182). -/
theorem packPairs_getElem?_of_single (pal : Palette) {last : Color24} : ∀ (px : List Color24) (k : Nat),
    px.length = 2 * k + 1 → px[2 * k]? = some last →
      (packPairs pal px)[k]? = some (packedByte (nearestIndex pal last) 0)
  | [_], 0, _, hp => by
    obtain rfl := Option.some.inj hp
    rfl
  | _ :: _ :: rest, k + 1, hw, hp =>
    packPairs_getElem?_of_single pal rest k (by simp only [List.length_cons] at hw; omega) hp

/-- The packed bytes stand at the front of the row (43_row_packer.md R180). -/
theorem packRow_getElem?_of_packPairs {pal : Palette} {px : List Color24} {b : Byte}
    (h : (packPairs pal px)[k]? = some b) : (packRow pal px)[k]? = some b :=
  (List.getElem?_append_left (List.getElem?_eq_some_iff.1 h).1).trans h

/-- Zeros stand after the packed bytes, up to `rowBytes` (43_row_packer.md R183). -/
theorem packRow_getElem?_of_padding (pal : Palette) {px : List Color24} (hlo : (px.length + 1) / 2 ≤ k)
    (hhi : k < rowBytes px.length) : (packRow pal px)[k]? = some 0 := by
  rw [← packPairs_length pal] at hlo
  rw [packRow, List.getElem?_append_right hlo]
  exact List.getElem?_replicate_of_lt (Nat.sub_lt_sub_right hlo hhi)

/-- Padding takes 0 to 3 bytes (43_row_packer.md R183, R188). -/
theorem rowBytes_bounds (w : Nat) : (w + 1) / 2 ≤ rowBytes w ∧ rowBytes w ≤ (w + 1) / 2 + 3 := by
  unfold rowBytes
  omega

/-! ### The pixels of a row read -/

/-- Pixel `c` is the bytes `3c`, `3c + 1`, `3c + 2` of the row (43_row_packer.md R185). -/
theorem slice_of_pixelsOf_getElem? {p : Color24} {w : Nat} {b : List Byte} (h : (pixelsOf w b)[c]? = some p) :
    slice b (3 * c) 3 = [p.blue, p.green, p.red] := by
  induction w, b using pixelsOf.induct generalizing c with
  | case1 w blue green red rest ih =>
    cases c with
    | zero =>
      obtain rfl := Option.some.inj h
      rfl
    | succ c => exact ih h
  | case2 w b hne =>
    simp [pixelsOf] at h

/-- Pixel `c` of a row read whole is its three bytes in `IN` (43_row_packer.md R185). -/
theorem slice_input_of_pixelsOf_memRead {p : Color24} {w : Nat} (hc : c < w)
    (h : (pixelsOf w (memRead (inRowBytes w) s))[c]? = some p) :
    slice s.input (s.icur.toNat + 3 * c) 3 = [p.blue, p.green, p.red] := by
  have hrow : 3 * c + 3 ≤ inRowBytes w := by
    unfold inRowBytes
    omega
  rw [← slice_of_pixelsOf_getElem? h, memRead_eq_slice, slice_slice hrow]

theorem pixelsOf_memRead_length {w : Nat} (he : s.icur.toNat + inRowBytes w ≤ s.input.length) :
    (pixelsOf w (memRead (inRowBytes w) s)).length = w :=
  pixelsOf_length _ _ ((Nat.le_add_right _ _).trans_eq (memRead_length he).symm)

/-! ### Where `PACK_ROW` goes on a negative width -/

theorem execPackRow_of_negative (hv : s.ihV = true) (hw : s.ih.width.toInt < 0) :
    execPackRow s = .next (raise .geometryError s) := by
  unfold execPackRow
  rw [needInfoHeader_of_valid hv, widthOf_eq, if_pos hw]

/-! ### The obligations -/

/-- Settles O24: the packed bytes and the zeros after them are `rowBytes` together. -/
theorem packedRowLength : Obligations.PackedRowLength :=
  packRow_length

/-- Settles O25: a pair, a last single pixel and the padding, each at its bytes. -/
theorem packedRowContent : Obligations.PackedRowContent := by
  intro pal px
  rw [packRow_length]
  refine ⟨fun k left right hl hr => ?_, fun k last hw hp => ?_, fun k => packRow_getElem?_of_padding pal,
    rowBytes_bounds px.length⟩
  · rw [← packedByte_eq]
    exact packRow_getElem?_of_packPairs (packPairs_getElem?_of_pair pal px k hl hr)
  · have hbyte := packRow_getElem?_of_packPairs (packPairs_getElem?_of_single pal px k hw hp)
    rwa [packedByte_eq] at hbyte

/-- Settles O26: the three errors in their order, then the row read whole, packed and appended. -/
theorem packRowReadsAndAppendsOneRow : Obligations.PackRowReadsAndAppendsOneRow := by
  intro s
  refine ⟨fun hv => needInfoHeader_of_invalid hv, execPackRow_of_negative, fun W hv hw hl => ?_⟩
  rw [← widthOf_eq] at hw
  refine ⟨execPackRow_of_short hv hw hl, fun he ho hb => ?_⟩
  have hlen := packRow_memRead_length s.pal he
  have hexec := execPackRow_of_enough hv hw hl he ho (hlen ▸ hb)
  rw [State.append, hlen] at hexec
  have hpx := pixelsOf_memRead_length he
  refine ⟨_, hpx, fun c p hp => slice_input_of_pixelsOf_memRead ?_ hp, hexec⟩
  exact hpx ▸ (List.getElem?_eq_some_iff.1 hp).1

end Sys2Proof.Machine

/-! SUPPORT. The step as a whole: where it hands over to a command, and when a command is refused (the dispatch of
44_system_and_sequences.md R190); then the two host sequences word by word (R193, R194), with the bytes `CONVERT` leaves
in `OUT` (R196). -/

namespace Sys2Proof.Machine

variable {s : State} {n : Nat} {v : List Byte} {r : Refusal}

/-! ### What a refusal says -/

/-- A read is refused on an input too long, or, with its bytes there, where the rest of the command is. -/
theorem inRead_refused {rest : List Byte → State → Result} (h : inRead n s rest = .refused r) :
    2 ^ 64 ≤ s.input.length ∨
      s.icur.toNat + n ≤ s.input.length ∧ rest (memRead n s) (s.consume n) = .refused r := by
  unfold inRead at h
  split at h
  · rename_i hl
    exact .inl hl
  · split at h
    · cases h
    · rename_i hs
      exact .inr ⟨not_lt.1 hs, h⟩

theorem outWrite_refused (h : outWrite v s = .refused r) :
    r = .outputTooLong ∧ 2 ^ 64 ≤ s.out.length + v.length := by
  unfold outWrite at h
  split at h
  · cases h
  · split at h
    · rename_i hl
      injection h with h
      exact ⟨h.symm, hl⟩
    · cases h

theorem needFileHeader_refused {rest : Result} (h : needFileHeader s rest = .refused r) : rest = .refused r := by
  unfold needFileHeader at h
  split at h
  · exact h
  · cases h

theorem needInfoHeader_refused {rest : Result} (h : needInfoHeader s rest = .refused r) : rest = .refused r := by
  unfold needInfoHeader at h
  split at h
  · exact h
  · cases h

/-- A row is at most 2^30 bytes, for its width is below 2^31 (43_row_packer.md R188). -/
theorem execPackRow_refused (hl : s.input.length < 2 ^ 64) (h : execPackRow s = .refused r) :
    r = .outputTooLong ∧ 2 ^ 64 ≤ s.out.length + 2 ^ 30 := by
  have h := needInfoHeader_refused h
  rw [widthOf_eq] at h
  split at h
  · cases h
  · rename_i hw
    obtain hl' | ⟨he, h⟩ := inRead_refused h
    · exact absurd hl hl'.not_gt
    · obtain ⟨hr, hb⟩ := outWrite_refused h
      obtain ⟨hw', hlt⟩ := toInt_toNat_of_nonneg (not_lt.1 hw)
      rw [packRow_memRead_length _ he, consume_out] at hb
      exact ⟨hr, hb.trans (Nat.add_le_add_left (rowBytes_le _ (hw' ▸ hlt)) _)⟩

/-- With an input below the stream limit a command is refused only when `OUT` would reach that limit, and it appends at
most 2^30 bytes (10_state.md R29). -/
theorem exec_refused {i : Instr} (hl : s.input.length < 2 ^ 64) (h : exec i s = .refused r) :
    r = .outputTooLong ∧ 2 ^ 64 ≤ s.out.length + 2 ^ 30 := by
  have appended {v : List Byte} (hv : v.length ≤ 2 ^ 30) (h : outWrite v s = .refused r) :
      r = .outputTooLong ∧ 2 ^ 64 ≤ s.out.length + 2 ^ 30 :=
    (outWrite_refused h).imp_right fun hb => hb.trans (Nat.add_le_add_left hv _)
  cases i with
  | rdFh =>
    have h : execRdFh s = .refused r := h
    obtain hl' | ⟨-, h⟩ := inRead_refused h
    · exact absurd hl hl'.not_gt
    · cases h
  | rdIh =>
    have h : execRdIh s = .refused r := h
    obtain hl' | ⟨-, h⟩ := inRead_refused h
    · exact absurd hl hl'.not_gt
    · cases h
  | chkSig =>
    have h := needFileHeader_refused h
    split at h <;> cases h
  | chkBpp =>
    have h := needInfoHeader_refused h
    split at h <;> cases h
  | hdrCvt =>
    have h := needInfoHeader_refused (needFileHeader_refused h)
    split at h <;> cases h
  | wrFh => exact appended (by simp) (needFileHeader_refused h)
  | wrIh => exact appended (by simp) (needInfoHeader_refused h)
  | wrPal => exact appended (by simp) h
  | packRow => exact execPackRow_refused hl h
  | quant blue green red => cases h
  | clr => cases h

/-! ### Where a step goes -/

/-- A step answers a next state of its own, or what a command answers once the host's event is taken. -/
theorem step_next_or_exec (s : State) :
    (∃ t, step s = .next t) ∨ ∃ i later, step s = exec i (s.withPending later) := by
  rcases hp : s.pending with _ | ⟨w | _, later⟩
  · exact .inl ⟨_, step_idle hp⟩
  · rw [step_command hp]
    by_cases hc : decode w = .ok .clr
    · exact .inl ⟨_, present_clr hc⟩
    by_cases he : s.err = 0
    · cases hd : decode w with
      | error e => exact .inl ⟨_, present_illegal hd he⟩
      | ok i => exact .inr ⟨i, later, present_ok hd he⟩
    · exact .inl ⟨_, present_halted hc he⟩
  · exact .inl ⟨_, step_reset hp⟩

theorem step_refused (hl : s.input.length < 2 ^ 64) (h : step s = .refused r) :
    r = .outputTooLong ∧ 2 ^ 64 ≤ s.out.length + 2 ^ 30 := by
  obtain ⟨t, ht⟩ | ⟨i, later, hi⟩ := step_next_or_exec s
  · rw [ht] at h
    cases h
  · exact exec_refused (s := s.withPending later) hl (hi.symm.trans h)

theorem step_ne_fault (hw : s.ocur.toNat = s.out.length) (e : Fault) : step s ≠ .fault e := by
  intro h
  obtain ⟨t, ht⟩ | ⟨i, later, hi⟩ := step_next_or_exec s
  · rw [ht] at h
    cases h
  · exact exec_fault (s := s.withPending later) (hi.symm.trans h) hw

/-! ### The obligations on one step -/

/-- Settles O6: each case is a case of `present`. -/
theorem stepRunsTheDecodedCommand : Obligations.StepRunsTheDecodedCommand := by
  intro w s later hp
  rw [step_command hp]
  exact ⟨present_clr, fun hd he => present_halted hd he, fun e hd he => present_illegal hd he,
    fun i hd he => present_ok hd he⟩

/-- Settles O38: the invariant excludes the fault and the refusal of the input, so what is left is a next state or the
refusal of the output. -/
theorem stepIsTotalAndNeverFaults : Obligations.StepIsTotalAndNeverFaults := by
  intro s hs
  obtain ⟨⟨hw, -⟩, ⟨hl, -⟩, -⟩ := hs
  refine ⟨fun hb => ?_, fun r => step_refused hl, step_ne_fault hw⟩
  cases h : step s with
  | next t => exact ⟨t, rfl⟩
  | fault e => exact absurd h (step_ne_fault hw e)
  | refused r => exact absurd hb (step_refused hl h).2.not_gt

end Sys2Proof.Machine

namespace Sys2Proof.Machine

variable {s t u : State} {w : Word} {later : List Word} {file : List Byte}

/-! ### Fields of a record within a file -/

section
variable {b : List Byte} {k n j : Nat}

theorem le16_le16At_slice (h : k + n ≤ b.length) (hj : j + 2 ≤ n) :
    le16 (le16At (slice b k n) j) = slice b (k + j) 2 := by
  rw [le16_le16At (by rwa [slice_length h]), slice_slice hj]

theorem le32_le32At_slice (h : k + n ≤ b.length) (hj : j + 4 ≤ n) :
    le32 (le32At (slice b k n) j) = slice b (k + j) 4 := by
  rw [le32_le32At (by rwa [slice_length h]), slice_slice hj]

theorem le16At_slice_toNat (h : k + n ≤ b.length) (hj : j + 2 ≤ n) :
    (le16At (slice b k n) j).toNat = leValue (slice b (k + j) 2) := by
  rw [← leValue_le16, le16_le16At_slice h hj]

theorem le32At_slice_toNat (h : k + n ≤ b.length) (hj : j + 4 ≤ n) :
    (le32At (slice b k n) j).toNat = leValue (slice b (k + j) 4) := by
  rw [← leValue_le32, le32_le32At_slice h hj]

end

/-! ### What the host reads -/

theorem hostReadErr_eq (s : State) : hostReadErr s = s.err := by
  apply BitVec.eq_of_toNat_eq
  have h : (readPort 16 s).toNat = (statusWord s).toNat := BitVec.toNat_setWidth_of_le (by decide)
  have := s.err.isLt
  rw [hostReadErr, BitVec.extractLsb'_toNat, h, statusWord_toNat]
  omega

/-- A signed 32-bit register of a loaded InfoHeader, as the host reads it. -/
theorem signed32_ifValid (v : BitVec 32) : signed32 ((ifValid true v).setWidth 32) = v.toInt := by
  rw [ifValid, if_pos rfl, setWidth_64_32, signed32_eq_toInt]

theorem rowCount_of_valid {H : Nat} (he : s.err = 0) (hi : s.ihV = true) (hh : s.ih.height.toInt = H) :
    rowCount s = H := by
  rw [rowCount, hostReadErr_eq, if_pos he, hostReadSigned, readPort, hi, signed32_ifValid, hh, Int.toNat_natCast]

theorem inspectReport_of_valid (he : s.err = 0) (hi : s.ihV = true) :
    inspectReport s = some ⟨s.ih.width.toInt, s.ih.height.toInt, s.ih.bitsPerPixel⟩ := by
  rw [inspectReport, hostReadErr_eq, if_neg (not_not.2 he)]
  simp only [hostReadSigned, readPort, hi, signed32_ifValid]
  rw [ifValid, if_pos rfl, setWidth_64_16]

theorem inspectReport_of_err (he : s.err ≠ 0) : inspectReport s = none := by
  rw [inspectReport, hostReadErr_eq, if_pos he]

/-! ### The words that read the headers -/

theorem raise_err_ne_zero {e : BmpError} : (raise e s).err ≠ 0 := errorCode_ne_zero e

/-- The word of a command that completes hands its state to the words after it. -/
theorem presentAll_encode_cons {i : Instr} (h : exec i s = .next t) (he : s.err = 0) :
    presentAll (encode i :: later) s = presentAll later t :=
  presentAll_cons_next ((present_ok (decode_encode i) he).trans h)

/-- The state after `CLR` and `RD_FH` on the input `file` (44_system_and_sequences.md R193 lines 2 to 4). -/
def fileHeaderRead (file : List Byte) (s : State) : State :=
  ((clear (bindInput file s)).consume 14).loadFh (unpackFileHeader (slice file 0 14))

/-- The state after `CLR`, `RD_FH` and `RD_IH` on the input `file`; a check that passes does not change it
(44_system_and_sequences.md R193 lines 2 to 7). -/
def headersRead (file : List Byte) (s : State) : State :=
  ((fileHeaderRead file s).consume 40).loadIh (unpackInfoHeader (slice file 14 40))

theorem presentAll_clr_rdFh (hl : file.length < 2 ^ 64) (h14 : 14 ≤ file.length) :
    presentAll (encode .clr :: encode .rdFh :: later) (bindInput file s) =
      presentAll later (fileHeaderRead file s) := by
  rw [presentAll_cons_next (present_clr (decode_encode .clr))]
  exact presentAll_encode_cons (i := .rdFh) (execRdFh_of_enough hl h14) rfl

theorem fileHeaderRead_signature_toNat (h14 : 14 ≤ file.length) :
    (fileHeaderRead file s).fh.signature.toNat = leValue (slice file 0 2) :=
  le16At_slice_toNat (k := 0) (j := 0) (by omega) (by decide : 0 + 2 ≤ 14)

theorem fileHeaderRead_signature_eq_iff (h14 : 14 ≤ file.length) :
    (fileHeaderRead file s).fh.signature = 0x4D42 ↔ leValue (slice file 0 2) = 0x4D42 := by
  rw [← fileHeaderRead_signature_toNat h14 (s := s)]
  exact BitVec.toNat_inj.symm

/-- On a bad signature both sequences end after `CHK_SIG`: the words left are ignored (60_exceptions.md R202). -/
theorem presentAll_of_signature_ne (hl : file.length < 2 ^ 64) (h14 : 14 ≤ file.length)
    (hg : leValue (slice file 0 2) ≠ 0x4D42) (hclr : encode .clr ∉ later) :
    presentAll (encode .clr :: encode .rdFh :: encode .chkSig :: later) (bindInput file s) =
      .next (raise .signatureError (fileHeaderRead file s)) := by
  have hraise : exec .chkSig (fileHeaderRead file s) = .next (raise .signatureError (fileHeaderRead file s)) :=
    execChkSig_of_mismatch rfl (mt (fileHeaderRead_signature_eq_iff h14).1 hg)
  rw [presentAll_clr_rdFh hl h14, presentAll_encode_cons hraise rfl]
  exact presentAll_halted raise_err_ne_zero hclr

/-- On a good signature and 54 bytes both sequences have read both headers after `RD_IH`. -/
theorem presentAll_headersRead (hl : file.length < 2 ^ 64) (h54 : 54 ≤ file.length)
    (hg : leValue (slice file 0 2) = 0x4D42) :
    presentAll (encode .clr :: encode .rdFh :: encode .chkSig :: encode .rdIh :: later) (bindInput file s) =
      presentAll later (headersRead file s) := by
  have h14 : 14 ≤ file.length := by omega
  have hsig : exec .chkSig (fileHeaderRead file s) = .next (fileHeaderRead file s) :=
    execChkSig_of_match rfl ((fileHeaderRead_signature_eq_iff h14).2 hg)
  rw [presentAll_clr_rdFh hl h14, presentAll_encode_cons hsig rfl]
  exact presentAll_encode_cons (i := .rdIh) (execRdIh_of_enough hl h54) rfl

theorem headersRead_bitsPerPixel_eq_iff (h54 : 54 ≤ file.length) :
    (headersRead file s).ih.bitsPerPixel = 24 ↔ leValue (slice file 28 2) = 24 := by
  have h : (headersRead file s).ih.bitsPerPixel.toNat = leValue (slice file 28 2) :=
    le16At_slice_toNat h54 (by decide : 14 + 2 ≤ 40)
  rw [← h]
  exact BitVec.toNat_inj.symm

theorem headersRead_width_toInt {W : Nat} (h54 : 54 ≤ file.length) (hw : leValue (slice file 18 4) = W)
    (hlt : W < 2 ^ 31) : (headersRead file s).ih.width.toInt = W := by
  have h : (headersRead file s).ih.width.toNat = leValue (slice file 18 4) :=
    le32At_slice_toNat h54 (by decide : 4 + 4 ≤ 40)
  rw [BitVec.toInt_eq_toNat_of_lt (by omega), h, hw]

theorem headersRead_height_toInt {H : Nat} (h54 : 54 ≤ file.length) (hh : leValue (slice file 22 4) = H)
    (hlt : H < 2 ^ 31) : (headersRead file s).ih.height.toInt = H := by
  have h : (headersRead file s).ih.height.toNat = leValue (slice file 22 4) :=
    le32At_slice_toNat h54 (by decide : 8 + 4 ≤ 40)
  rw [BitVec.toInt_eq_toNat_of_lt (by omega), h, hh]

/-- On a depth other than 24 `CONVERT` has raised `DepthError` after `CHK_BPP` (60_exceptions.md R203). -/
theorem presentAll_convertReadWords_of_depth_ne (hl : file.length < 2 ^ 64) (h54 : 54 ≤ file.length)
    (hg : leValue (slice file 0 2) = 0x4D42) (hd : leValue (slice file 28 2) ≠ 24) :
    presentAll convertReadWords (bindInput file s) = .next (raise .depthError (headersRead file s)) :=
  (presentAll_headersRead hl h54 hg).trans <|
    presentAll_encode_cons (i := .chkBpp) (later := [])
      (execChkBpp_of_mismatch rfl (mt (headersRead_bitsPerPixel_eq_iff h54).1 hd)) rfl

theorem presentAll_convertReadWords_of_depth_eq (hl : file.length < 2 ^ 64) (h54 : 54 ≤ file.length)
    (hg : leValue (slice file 0 2) = 0x4D42) (hd : leValue (slice file 28 2) = 24) :
    presentAll convertReadWords (bindInput file s) = .next (headersRead file s) :=
  (presentAll_headersRead hl h54 hg).trans <|
    presentAll_encode_cons (i := .chkBpp) (later := [])
      (execChkBpp_of_match rfl ((headersRead_bitsPerPixel_eq_iff h54).2 hd)) rfl

theorem inspect_headersRead (hl : file.length < 2 ^ 64) (h54 : 54 ≤ file.length)
    (hg : leValue (slice file 0 2) = 0x4D42) : inspect file s = .next (headersRead file s) :=
  presentAll_headersRead (later := []) hl h54 hg

/-! ### Where `CONVERT` goes after line 8 -/

theorem convert_of_read_err (h : presentAll convertReadWords (bindInput file s) = .next t) (he : t.err ≠ 0) :
    convert file s = .next t := by
  simp only [convert, h, andThen, hostReadErr_eq, if_pos he]

theorem convert_of_read_ok (h : presentAll convertReadWords (bindInput file s) = .next t) (he : t.err = 0)
    (hw : presentAll convertWriteWords t = .next u) :
    convert file s = presentAll (List.replicate (rowCount u) packRowWord) u := by
  simp only [convert, h, andThen, hostReadErr_eq, if_neg (not_not.2 he), hw]

/-- Settles O41: `CHK_SIG` ends both sequences on a bad signature, `CHK_BPP` only `CONVERT` on a bad depth. -/
theorem rejectedInputsLeaveNoOutput : Obligations.RejectedInputsLeaveNoOutput := by
  intro s file hl
  refine ⟨fun h14 hg => ?_, fun h54 hg hd => ?_⟩
  · have hend {later : List Word} (hclr : encode .clr ∉ later) :=
      presentAll_of_signature_ne (s := s) hl h14 hg hclr
    have hconvert := hend (later := [encode .rdIh, encode .chkBpp]) (by decide)
    have hinspect := hend (later := [encode .rdIh]) (by decide)
    exact ⟨⟨_, convert_of_read_err hconvert raise_err_ne_zero, rfl, rfl⟩,
      _, hinspect, rfl, rfl, inspectReport_of_err raise_err_ne_zero⟩
  · have hconvert := presentAll_convertReadWords_of_depth_ne (s := s) hl h54 hg hd
    exact ⟨⟨_, convert_of_read_err hconvert raise_err_ne_zero, rfl, rfl⟩,
      _, inspect_headersRead hl h54 hg, rfl, rfl⟩

end Sys2Proof.Machine

namespace Sys2Proof.Machine

variable {s : State} {later : List Word} {file : List Byte} {W H n k off : Nat}

/-! ### Slices of appended bytes -/

section
variable {a b : List Byte}

theorem slice_append_left (h : k + n ≤ a.length) : slice (a ++ b) k n = slice a k n := by
  rw [slice, slice, List.drop_append_of_le_length (by omega),
    List.take_append_of_le_length (by rw [List.length_drop]; omega)]

theorem slice_append_right (a b : List Byte) (k n : Nat) : slice (a ++ b) (a.length + k) n = slice b k n := by
  rw [slice, List.drop_length_add_append, slice]

theorem slice_zero_length (b : List Byte) : slice b 0 b.length = b := List.take_length

end

/-! ### Stream accesses one after another -/

theorem consume_zero (s : State) : s.consume 0 = s := by simp [State.consume]

theorem append_nil (s : State) : s.append [] = s := by simp [State.append]

theorem consume_consume (s : State) (m n : Nat) : (s.consume m).consume n = s.consume (m + n) := by
  simp [State.consume, BitVec.add_assoc, BitVec.ofNat_add]

theorem append_append (s : State) (u v : List Byte) : (s.append u).append v = s.append (u ++ v) := by
  simp [State.append, BitVec.add_assoc, BitVec.ofNat_add]

theorem append_consume (s : State) (v : List Byte) (n : Nat) : (s.append v).consume n = (s.consume n).append v := rfl

theorem append_ocur_eq_length {v : List Byte} (ho : s.ocur.toNat = s.out.length)
    (hb : s.out.length + v.length < 2 ^ 64) : (s.append v).ocur.toNat = (s.append v).out.length := by
  rw [append_toNat ho hb, append_out, List.length_append]

/-! ### The words that write the headers -/

/-- The registers of `s` rewritten for the 4-bit output of a `W` by `H` bitmap (40_header_codec.md R138). -/
def headersConverted (W H : Nat) (s : State) : State :=
  s.rewriteHeaders (convertFileHeader W H s.fh) (convertInfoHeader W H s.ih)

/-- The bytes of both headers and the palette, 118 bytes (20_memory.md R70). -/
def headerBytes (s : State) : List Byte := packFileHeader s.fh ++ packInfoHeader s.ih ++ paletteBlock s.pal

theorem headerBytes_length (s : State) : (headerBytes s).length = 118 := rfl

/-- The three words that write on loaded headers (44_system_and_sequences.md R193 lines 11 to 13). -/
theorem presentAll_writeHeaderBytes (he : s.err = 0) (hf : s.fhV = true) (hi : s.ihV = true)
    (ho : s.ocur.toNat = s.out.length) (hb : s.out.length + 118 < 2 ^ 64) :
    presentAll [encode .wrFh, encode .wrIh, encode .wrPal] s = .next (s.append (headerBytes s)) := by
  have hfh : exec .wrFh s = .next (s.append (packFileHeader s.fh)) := execWrFh_of_valid hf ho (by omega)
  have ho₁ := append_ocur_eq_length (v := packFileHeader s.fh) ho (by rw [packFileHeader_length]; omega)
  have hlen₁ : (s.append (packFileHeader s.fh)).out.length = s.out.length + 14 := List.length_append
  have hih := execWrIh_of_valid (s := s.append (packFileHeader s.fh)) hi ho₁ (by omega)
  have ho₂ := append_ocur_eq_length (v := packInfoHeader s.ih) ho₁ (by rw [packInfoHeader_length]; omega)
  have hlen₂ : ((s.append (packFileHeader s.fh)).append (packInfoHeader s.ih)).out.length = s.out.length + 14 + 40 :=
    List.length_append.trans (congrArg (· + 40) hlen₁)
  have hpal := execWrPal_of_wf ho₂ (by omega)
  rw [presentAll_encode_cons hfh he, presentAll_encode_cons (i := .wrIh) hih he, append_ih,
    presentAll_encode_cons (i := .wrPal) hpal he, append_pal, append_pal, append_append, append_append, headerBytes,
    List.append_assoc]
  rfl

/-- The four words from `HDR_CVT` to `WR_PAL` on loaded headers (44_system_and_sequences.md R193 lines 10 to 13). -/
theorem presentAll_convertWriteWords (he : s.err = 0) (hf : s.fhV = true) (hi : s.ihV = true)
    (hw : s.ih.width.toInt = W) (hh : s.ih.height.toInt = H) (ho : s.ocur.toNat = s.out.length)
    (hb : s.out.length + 118 < 2 ^ 64) :
    presentAll convertWriteWords s =
      .next ((headersConverted W H s).append (headerBytes (headersConverted W H s))) := by
  have hcvt : exec .hdrCvt s = .next (headersConverted W H s) := execHdrCvt_of_nonneg hf hi hw hh
  exact (presentAll_encode_cons hcvt he).trans (presentAll_writeHeaderBytes he hf hi ho hb)

/-! ### The words that pack rows -/

/-- The packed row of row `k` of the rows that begin at byte `off` of `b` (43_row_packer.md R186). -/
def packedRow (pal : Palette) (W : Nat) (b : List Byte) (off k : Nat) : List Byte :=
  packRow pal (pixelsOf W (slice b (off + k * inRowBytes W) (inRowBytes W)))

/-- The first `n` packed rows, one after another. -/
def packedRows (pal : Palette) (W : Nat) (b : List Byte) (off n : Nat) : List Byte :=
  (List.range n).flatMap (packedRow pal W b off)

theorem packedRows_succ (pal : Palette) (W : Nat) (b : List Byte) (off n : Nat) :
    packedRows pal W b off (n + 1) = packedRows pal W b off n ++ packedRow pal W b off n := by
  simp [packedRows, List.range_succ]

theorem packedRow_length (pal : Palette) {b : List Byte} (h : off + (k + 1) * inRowBytes W ≤ b.length) :
    (packedRow pal W b off k).length = rowBytes W := by
  rw [Nat.succ_mul] at h
  rw [packedRow, packRow_length, pixelsOf_length]
  rw [slice_length (by omega)]
  exact Nat.le_add_right _ _

theorem packedRows_length (pal : Palette) {b : List Byte} (h : off + n * inRowBytes W ≤ b.length) :
    (packedRows pal W b off n).length = n * rowBytes W := by
  induction n with
  | zero => simp [packedRows]
  | succ n ih =>
    rw [packedRows_succ, List.length_append, packedRow_length pal h, ih (by rw [Nat.succ_mul] at h; omega),
      Nat.succ_mul]

/-- Row `k` stands behind the `k` rows before it. -/
theorem slice_packedRows (pal : Palette) {b : List Byte} (h : off + n * inRowBytes W ≤ b.length) (hk : k < n) :
    slice (packedRows pal W b off n) (k * rowBytes W) (rowBytes W) = packedRow pal W b off k := by
  induction n with
  | zero => exact absurd hk k.not_lt_zero
  | succ n ih =>
    have hn : off + n * inRowBytes W ≤ b.length := by
      rw [Nat.succ_mul] at h
      omega
    rw [packedRows_succ]
    obtain hk | rfl := (Nat.lt_succ_iff.1 hk).lt_or_eq
    · rw [slice_append_left, ih hn hk]
      rw [packedRows_length pal hn, ← Nat.succ_mul]
      exact Nat.mul_le_mul_right _ hk
    · rw [← packedRows_length pal hn, ← packedRow_length pal h]
      exact (slice_append_right _ _ 0 _).trans (slice_zero_length _)

/-- The state once `PACK_ROW` has completed `n` times: `n` rows are read and their packed rows appended. -/
def rowsPacked (W n : Nat) (s : State) : State :=
  (s.consume (n * inRowBytes W)).append (packedRows s.pal W s.input s.icur.toNat n)

theorem rowsPacked_zero (W : Nat) (s : State) : rowsPacked W 0 s = s := by
  rw [rowsPacked, Nat.zero_mul, consume_zero]
  exact append_nil s

theorem rowsPacked_icur (hl : s.input.length < 2 ^ 64) (hin : s.icur.toNat + n * inRowBytes W ≤ s.input.length) :
    (rowsPacked W n s).icur.toNat = s.icur.toNat + n * inRowBytes W :=
  consume_toNat hl hin

theorem rowsPacked_out_length (hin : s.icur.toNat + n * inRowBytes W ≤ s.input.length) :
    (rowsPacked W n s).out.length = s.out.length + n * rowBytes W := by
  rw [rowsPacked, append_out, consume_out, List.length_append, packedRows_length _ hin]

theorem rowsPacked_ocur (ho : s.ocur.toNat = s.out.length)
    (hin : s.icur.toNat + n * inRowBytes W ≤ s.input.length) (hout : s.out.length + n * rowBytes W < 2 ^ 64) :
    (rowsPacked W n s).ocur.toNat = (rowsPacked W n s).out.length :=
  append_ocur_eq_length (s := s.consume _) ho (by rwa [packedRows_length _ hin])

/-- One more `PACK_ROW` after `n` reads and packs row `n`. -/
theorem exec_packRow_rowsPacked (hi : s.ihV = true) (hw : s.ih.width.toInt = W) (hl : s.input.length < 2 ^ 64)
    (ho : s.ocur.toNat = s.out.length) (hin : s.icur.toNat + (n + 1) * inRowBytes W ≤ s.input.length)
    (hout : s.out.length + (n + 1) * rowBytes W < 2 ^ 64) :
    exec .packRow (rowsPacked W n s) = .next (rowsPacked W (n + 1) s) := by
  have hin' : s.icur.toNat + n * inRowBytes W + inRowBytes W ≤ s.input.length := by
    rwa [Nat.succ_mul, ← Nat.add_assoc] at hin
  have hn : s.icur.toNat + n * inRowBytes W ≤ s.input.length := (Nat.le_add_right _ _).trans hin'
  have hout' : s.out.length + n * rowBytes W + rowBytes W < 2 ^ 64 := by
    rwa [Nat.succ_mul, ← Nat.add_assoc] at hout
  have hcur := rowsPacked_icur hl hn
  have hrow : packRow (rowsPacked W n s).pal (pixelsOf W (memRead (inRowBytes W) (rowsPacked W n s))) =
      packedRow s.pal W s.input s.icur.toNat n := by
    rw [memRead_eq_slice, hcur]
    rfl
  have hexec := execPackRow_of_enough (s := rowsPacked W n s) hi ((widthOf_eq _).trans hw) hl (by rwa [hcur])
    (rowsPacked_ocur ho hn (by omega))
    (by rwa [hrow, packedRow_length _ hin, rowsPacked_out_length hn])
  refine hexec.trans (congrArg Host.Outcome.next ?_)
  rw [hrow, rowsPacked, append_consume, consume_consume, append_append, ← Nat.succ_mul, rowsPacked, packedRows_succ]

/-- `n` times the word of `PACK_ROW`, with input for `n` rows and room for them (44_system_and_sequences.md R193
line 15). -/
theorem presentAll_replicate_packRow (he : s.err = 0) (hi : s.ihV = true) (hw : s.ih.width.toInt = W)
    (hl : s.input.length < 2 ^ 64) (ho : s.ocur.toNat = s.out.length)
    (hin : s.icur.toNat + n * inRowBytes W ≤ s.input.length) (hout : s.out.length + n * rowBytes W < 2 ^ 64) :
    presentAll (List.replicate n packRowWord ++ later) s = presentAll later (rowsPacked W n s) := by
  induction n generalizing later with
  | zero => rw [rowsPacked_zero, List.replicate_zero, List.nil_append]
  | succ n ih =>
    have hexec := exec_packRow_rowsPacked hi hw hl ho hin hout
    rw [Nat.succ_mul] at hin hout
    rw [List.replicate_succ', List.append_assoc, List.singleton_append, ih (by omega) (by omega)]
    exact presentAll_encode_cons hexec he

end Sys2Proof.Machine

namespace Sys2Proof.Machine

variable {s : State} {file : List Byte} {W H n : Nat}

/-! ### Inputs that `CONVERT` takes -/

/-- `file` begins with the headers of a 24-bit bitmap of non-negative width `W` and height `H`
(44_system_and_sequences.md R196); how many rows follow them is not said. -/
structure Bitmap24 (file : List Byte) (W H : Nat) : Prop where
  bounded : file.length < 2 ^ 64
  headers : 54 ≤ file.length
  signature : leValue (slice file 0 2) = 0x4D42
  depth : leValue (slice file 28 2) = 24
  width : leValue (slice file 18 4) = W
  width_lt : W < 2 ^ 31
  height : leValue (slice file 22 4) = H
  height_lt : H < 2 ^ 31

/-- Headers and packed rows stay far below the stream limit. -/
theorem Bitmap24.out_bound (hf : Bitmap24 file W H) (hn : n ≤ H) : 118 + n * rowBytes W < 2 ^ 64 := by
  have h : n * rowBytes W ≤ 2 ^ 31 * 2 ^ 30 :=
    Nat.mul_le_mul (hn.trans hf.height_lt.le) (rowBytes_le W hf.width_lt)
  omega

/-- The state of `CONVERT` after `WR_PAL`: both headers read and rewritten, and they and the palette in `OUT`
(44_system_and_sequences.md R193 lines 2 to 13). -/
def headersWritten (file : List Byte) (W H : Nat) (s : State) : State :=
  (headersConverted W H (headersRead file s)).append (headerBytes (headersConverted W H (headersRead file s)))

/-- `CONVERT` comes to its rows, one `PACK_ROW` for each of `H`. -/
theorem Bitmap24.convert_eq (hf : Bitmap24 file W H) (s : State) :
    convert file s = presentAll (List.replicate H packRowWord) (headersWritten file W H s) := by
  have hw : (headersRead file s).ih.width.toInt = W := headersRead_width_toInt hf.headers hf.width hf.width_lt
  have hh : (headersRead file s).ih.height.toInt = H := headersRead_height_toInt hf.headers hf.height hf.height_lt
  have hread := presentAll_convertReadWords_of_depth_eq (s := s) hf.bounded hf.headers hf.signature hf.depth
  have hwrite : presentAll convertWriteWords (headersRead file s) = .next (headersWritten file W H s) :=
    presentAll_convertWriteWords rfl rfl rfl hw hh rfl (show 0 + 118 < 2 ^ 64 by decide)
  rw [convert_of_read_ok hread rfl hwrite, rowCount_of_valid (s := headersWritten file W H s) rfl rfl hh]

theorem headersWritten_icur_toNat (file : List Byte) (W H : Nat) (s : State) :
    (headersWritten file W H s).icur.toNat = 54 := rfl

theorem headersWritten_out_length (file : List Byte) (W H : Nat) (s : State) :
    (headersWritten file W H s).out.length = 118 := headerBytes_length _

theorem headersWritten_ocur_toNat (file : List Byte) (W H : Nat) (s : State) :
    (headersWritten file W H s).ocur.toNat = (headersWritten file W H s).out.length :=
  append_ocur_eq_length rfl (by rw [headerBytes_length]; exact (show 0 + 118 < 2 ^ 64 by decide))

/-- `CONVERT` completes `n` of its `H` rows where the input holds them, and goes on with the rest. -/
theorem Bitmap24.convert_rowsPacked (hf : Bitmap24 file W H) (s : State) (hn : n ≤ H)
    (hin : 54 + n * inRowBytes W ≤ file.length) :
    convert file s =
      presentAll (List.replicate (H - n) packRowWord) (rowsPacked W n (headersWritten file W H s)) := by
  have hw : (headersRead file s).ih.width.toInt = W := headersRead_width_toInt hf.headers hf.width hf.width_lt
  have hrows := presentAll_replicate_packRow (s := headersWritten file W H s)
    (later := List.replicate (H - n) packRowWord) rfl rfl hw hf.bounded
    (headersWritten_ocur_toNat file W H s) (by rw [headersWritten_icur_toNat]; exact hin)
    (by rw [headersWritten_out_length]; exact hf.out_bound hn)
  rwa [List.replicate_append_replicate, Nat.add_sub_cancel' hn, ← hf.convert_eq] at hrows

/-! ### The bytes that `CONVERT` writes -/

/-- `out` begins with the headers of `file` as `CONVERT` rewrites them and the block of the palette `pal`
(44_system_and_sequences.md R196 items 2 to 5). -/
def BeginsConverted (pal : Palette) (file : List Byte) (W H : Nat) (out : List Byte) : Prop :=
  slice out 0 2 = slice file 0 2 ∧ leValue (slice out 2 4) = (rowBytes W * H + 118) % 2 ^ 32 ∧
  slice out 6 4 = slice file 6 4 ∧ leValue (slice out 10 4) = (leValue (slice file 10 4) + 64) % 2 ^ 32 ∧
  slice out 14 14 = slice file 14 14 ∧ leValue (slice out 28 2) = 4 ∧
  slice out 30 4 = slice file 30 4 ∧ leValue (slice out 34 4) = (rowBytes W * H) % 2 ^ 32 ∧
  slice out 38 16 = slice file 38 16 ∧
  ∀ i : Fin 16, slice out (54 + 4 * i) 4 = [pal[i].blue, pal[i].green, pal[i].red, 0]

/-- Where the fields of both headers stand in `OUT` (20_memory.md R70). -/
theorem slices_headerBytes_append (c : State) (rows : List Byte) :
    let out := headerBytes c ++ rows
    slice out 0 2 = le16 c.fh.signature ∧ slice out 2 4 = le32 c.fh.fileSize ∧
    slice out 6 4 = le16 c.fh.reserved1 ++ le16 c.fh.reserved2 ∧ slice out 10 4 = le32 c.fh.pixelDataOffset ∧
    slice out 14 14 = le32 c.ih.headerSize ++ le32 c.ih.width ++ le32 c.ih.height ++ le16 c.ih.planes ∧
    slice out 28 2 = le16 c.ih.bitsPerPixel ∧ slice out 30 4 = le32 c.ih.compression ∧
    slice out 34 4 = le32 c.ih.imageSize ∧
    slice out 38 16 = le32 c.ih.xPelsPerMeter ++ le32 c.ih.yPelsPerMeter ++ le32 c.ih.colorsUsed ++
      le32 c.ih.colorsImportant := by
  simp only [headerBytes, packFileHeader, packInfoHeader, le16, le32, List.cons_append, List.nil_append, slice,
    List.drop_succ_cons, List.take_succ_cons, List.drop_zero, List.take_zero, and_self]

/-- Where the entries of the palette stand in `OUT` (20_memory.md R70). -/
theorem slice_headerBytes_append_entry (c : State) (rows : List Byte) (i : Fin 16) :
    slice (headerBytes c ++ rows) (54 + 4 * i) 4 = paletteEntryBytes c.pal[i] := by
  have hlen : (packFileHeader c.fh ++ packInfoHeader c.ih).length = 54 := rfl
  rw [slice_append_left (by rw [headerBytes_length]; omega), headerBytes, ← hlen, slice_append_right,
    slice_paletteBlock]

/-- A converted header's bytes but for its rewritten fields are those of the file, field by field
(40_header_codec.md R138, R139). -/
theorem beginsConverted_headerBytes (h54 : 54 ≤ file.length) (s : State) (rows : List Byte) :
    BeginsConverted s.pal file W H (headerBytes (headersConverted W H (headersRead file s)) ++ rows) := by
  have f16 {j : Nat} (hj : j + 2 ≤ 14) : le16 (le16At (slice file 0 14) j) = slice file j 2 := by
    rw [le16_le16At_slice (by omega) hj, Nat.zero_add]
  have f32 {j : Nat} (hj : j + 4 ≤ 14) : (le32At (slice file 0 14) j).toNat = leValue (slice file j 4) := by
    rw [le32At_slice_toNat (by omega) hj, Nat.zero_add]
  have i16 {j : Nat} (hj : j + 2 ≤ 40) := le16_le16At_slice (k := 14) h54 hj
  have i32 {j : Nat} (hj : j + 4 ≤ 40) := le32_le32At_slice (k := 14) h54 hj
  obtain ⟨h0, h2, h6, h10, h14, h28, h30, h34, h38⟩ :=
    slices_headerBytes_append (headersConverted W H (headersRead file s)) rows
  refine ⟨h0.trans (f16 (by decide)), ?_, h6.trans ?_, ?_, h14.trans ?_, ?_, h30.trans (i32 (by decide)), ?_,
    h38.trans ?_, slice_headerBytes_append_entry _ rows⟩
  · rw [h2, leValue_le32]
    exact BitVec.toNat_ofNat _ _
  · show le16 (le16At (slice file 0 14) 6) ++ le16 (le16At (slice file 0 14) 8) = _
    rw [f16 (by decide), f16 (by decide), slice_append_slice file 6 2 2]
  · rw [h10, leValue_le32, ← f32 (by decide)]
    exact BitVec.toNat_add _ _
  · show le32 (le32At (slice file 14 40) 0) ++ le32 (le32At (slice file 14 40) 4) ++
      le32 (le32At (slice file 14 40) 8) ++ le16 (le16At (slice file 14 40) 12) = _
    rw [i32 (by decide), i32 (by decide), i32 (by decide), i16 (by decide), slice_append_slice file 14 4 4,
      slice_append_slice file 14 8 4, slice_append_slice file 14 12 2]
  · rw [h28, leValue_le16]
    rfl
  · rw [h34, leValue_le32]
    exact BitVec.toNat_ofNat _ _
  · show le32 (le32At (slice file 14 40) 24) ++ le32 (le32At (slice file 14 40) 28) ++
      le32 (le32At (slice file 14 40) 32) ++ le32 (le32At (slice file 14 40) 36) = _
    rw [i32 (by decide), i32 (by decide), i32 (by decide), i32 (by decide), slice_append_slice file 38 4 4,
      slice_append_slice file 38 8 4, slice_append_slice file 38 12 4]

/-- After `n` rows `OUT` is the headers, the palette and `n` packed rows. -/
theorem rowsPacked_headersWritten_out (file : List Byte) (W H n : Nat) (s : State) :
    (rowsPacked W n (headersWritten file W H s)).out =
      headerBytes (headersConverted W H (headersRead file s)) ++ packedRows s.pal W file 54 n := rfl

/-- What `OUT` holds after `n` rows, byte for byte (44_system_and_sequences.md R196, 60_exceptions.md R222). -/
theorem Bitmap24.out_after_rows (hf : Bitmap24 file W H) (s : State) (hin : 54 + n * inRowBytes W ≤ file.length) :
    (rowsPacked W n (headersWritten file W H s)).out.length = 118 + n * rowBytes W ∧
    BeginsConverted s.pal file W H (rowsPacked W n (headersWritten file W H s)).out ∧
    ∀ k < n, slice (rowsPacked W n (headersWritten file W H s)).out (118 + k * rowBytes W) (rowBytes W) =
      packRow s.pal (pixelsOf W (slice file (54 + k * inRowBytes W) (inRowBytes W))) := by
  rw [rowsPacked_headersWritten_out]
  refine ⟨?_, beginsConverted_headerBytes hf.headers s _, fun k hk => ?_⟩
  · rw [List.length_append, headerBytes_length, packedRows_length _ hin]
  · rw [← headerBytes_length (headersConverted W H (headersRead file s)), slice_append_right,
      slice_packedRows _ hin hk, packedRow]

/-! ### The obligations on the sequences -/

/-- The input of the statements on a completed `CONVERT`: all `H` rows are there. -/
theorem bitmap24_of_rows (hl : file.length < 2 ^ 64) (hg : leValue (slice file 0 2) = 0x4D42)
    (hd : leValue (slice file 28 2) = 24) (hw : leValue (slice file 18 4) = W) (hwl : W < 2 ^ 31)
    (hh : leValue (slice file 22 4) = H) (hhl : H < 2 ^ 31) (hr : 54 + n * inRowBytes W ≤ file.length) :
    Bitmap24 file W H :=
  ⟨hl, (Nat.le_add_right _ _).trans hr, hg, hd, hw, hwl, hh, hhl⟩

/-- Settles O39: all `H` rows are packed, and then no word is left. -/
theorem convertWritesTheConvertedBitmap : Obligations.ConvertWritesTheConvertedBitmap := by
  intro s file W H hl hg hd hw hwl hh hhl hr
  have hf := bitmap24_of_rows hl hg hd hw hwl hh hhl hr
  obtain ⟨hlen, ⟨h0, h2, h6, h10, h14, h28, h30, h34, h38, hpal⟩, hrows⟩ := hf.out_after_rows s hr
  have hrun := hf.convert_rowsPacked s le_rfl hr
  rw [Nat.sub_self] at hrun
  rw [Nat.add_comm, Nat.mul_comm] at hlen
  exact ⟨_, hrun, rfl, hlen, h0, h2, h6, h10, h14, h28, h30, h34, h38, hpal, hrows⟩

/-- Settles O40: the signature, the width and the height are bytes that `CONVERT` keeps, and the depth is one that it
writes. -/
theorem inspectAfterConvertReportsTheSameSize : Obligations.InspectAfterConvertReportsTheSameSize := by
  intro s s' t file W H hl hg hd hw hwl hh hhl hr ht
  obtain ⟨t', ht', -, hlen, h0, -, -, -, h14, h28, -⟩ :=
    convertWritesTheConvertedBitmap s file W H hl hg hd hw hwl hh hhl hr
  obtain rfl : t' = t := by
    rw [ht'] at ht
    injection ht
  have hbound := (bitmap24_of_rows hl hg hd hw hwl hh hhl hr).out_bound le_rfl
  rw [Nat.mul_comm] at hbound
  have hl' : t'.out.length < 2 ^ 64 := by omega
  have h54 : 54 ≤ t'.out.length := by omega
  have hkeep {k : Nat} (hk : k + 4 ≤ 14) : slice t'.out (14 + k) 4 = slice file (14 + k) 4 := by
    rw [← slice_slice hk, h14, slice_slice hk]
  refine ⟨_, inspect_headersRead hl' h54 (h0 ▸ hg), (inspectReport_of_valid rfl rfl).trans ?_⟩
  have hwidth := headersRead_width_toInt (s := s') h54 ((congrArg leValue (hkeep (k := 4) (by decide))).trans hw) hwl
  have hheight := headersRead_height_toInt (s := s') h54 ((congrArg leValue (hkeep (k := 8) (by decide))).trans hh) hhl
  have hdepth : (headersRead t'.out s').ih.bitsPerPixel = 4 := by
    apply BitVec.eq_of_toNat_eq
    exact (le16At_slice_toNat h54 (by decide : 14 + 2 ≤ 40)).trans h28
  rw [hwidth, hheight, hdepth]

end Sys2Proof.Machine

/-! SUPPORT. The errors of BMPQ (60_exceptions.md): which command raises which error and what an error changes (R210,
R217), the halted state and the way out of it (R211, R213), and where `CONVERT` ends on the first error of its input
(R209, R222). -/

namespace Sys2Proof.Machine

variable {s t : State} {i : Instr}

/-! ### What an error changes -/

/-- The state in which the error `e` leaves BMPQ (60_exceptions.md R210). -/
def State.afterError (s : State) : BmpError → State
  | .shortReadError => raise .shortReadError s.exhaust
  | e => raise e s

theorem afterError_err (s : State) (e : BmpError) : (s.afterError e).err = errorCode e := by cases e <;> rfl

/-- Only a short read has code 4, and only a short read changes more than `ERR`. -/
theorem afterError_of_errorCode_ne (s : State) {e : BmpError} (h : errorCode e ≠ 4) : s.afterError e = raise e s := by
  cases e with
  | shortReadError => exact absurd rfl h
  | _ => rfl

theorem eq_shortReadError_of_errorCode {e : BmpError} (h : errorCode e = 4) : e = .shortReadError := by
  cases e with
  | shortReadError => rfl
  | _ => cases h

/-! ### The matrix of commands and errors -/

/-- In the state `s` the command raises the error: the entries of the matrix of 60_exceptions.md R217 with their
conditions. -/
inductive Raises (s : State) : Instr → BmpError → Prop
  | wrongSignature (hv : s.fhV = true) (hg : s.fh.signature ≠ 0x4D42) : Raises s .chkSig .signatureError
  | wrongDepth (hv : s.ihV = true) (hd : s.ih.bitsPerPixel ≠ 24) : Raises s .chkBpp .depthError
  | shortFileHeader (hs : s.input.length < s.icur.toNat + 14) : Raises s .rdFh .shortReadError
  | shortInfoHeader (hs : s.input.length < s.icur.toNat + 40) : Raises s .rdIh .shortReadError
  | shortRow (hv : s.ihV = true) (hw : 0 ≤ s.ih.width.toInt)
      (hs : s.input.length < s.icur.toNat + inRowBytes s.ih.width.toNat) : Raises s .packRow .shortReadError
  | negativeSize (hf : s.fhV = true) (hi : s.ihV = true) (hg : s.ih.width.toInt < 0 ∨ s.ih.height.toInt < 0) :
      Raises s .hdrCvt .geometryError
  | negativeWidth (hv : s.ihV = true) (hw : s.ih.width.toInt < 0) : Raises s .packRow .geometryError
  | noFileHeader {i : Instr} (hi : i = .chkSig ∨ i = .wrFh) (hv : s.fhV = false) : Raises s i .uninitError
  | noInfoHeader {i : Instr} (hi : i = .chkBpp ∨ i = .wrIh ∨ i = .packRow) (hv : s.ihV = false) :
      Raises s i .uninitError
  | noHeaders (hv : s.fhV = false ∨ s.ihV = false) : Raises s .hdrCvt .uninitError

/-- A command that ends with `ERR` not 0 has raised an error of the matrix, and has done nothing else. -/
theorem exec_raises (h : exec i s = .next t) (hs : s.err = 0) (ht : t.err ≠ 0) :
    ∃ e, Raises s i e ∧ t = s.afterError e := by
  cases i with
  | rdFh =>
    obtain ⟨-, ⟨hr, rfl⟩ | ⟨-, rfl⟩⟩ := execRdFh_cases h
    · exact ⟨_, .shortFileHeader hr, rfl⟩
    · exact absurd hs ht
  | rdIh =>
    obtain ⟨-, ⟨hr, rfl⟩ | ⟨-, rfl⟩⟩ := execRdIh_cases h
    · exact ⟨_, .shortInfoHeader hr, rfl⟩
    · exact absurd hs ht
  | chkSig =>
    obtain ⟨hv, rfl⟩ | ⟨hv, hg, rfl⟩ | ⟨-, -, rfl⟩ := execChkSig_cases h
    · exact ⟨_, .noFileHeader (.inl rfl) hv, rfl⟩
    · exact ⟨_, .wrongSignature hv hg, rfl⟩
    · exact absurd hs ht
  | chkBpp =>
    obtain ⟨hv, rfl⟩ | ⟨hv, hd, rfl⟩ | ⟨-, -, rfl⟩ := execChkBpp_cases h
    · exact ⟨_, .noInfoHeader (.inl rfl) hv, rfl⟩
    · exact ⟨_, .wrongDepth hv hd, rfl⟩
    · exact absurd hs ht
  | hdrCvt =>
    obtain ⟨hv, rfl⟩ | ⟨hf, hi, hg, rfl⟩ | ⟨-, -, -, -, rfl⟩ := execHdrCvt_cases h
    · exact ⟨_, .noHeaders hv, rfl⟩
    · exact ⟨_, .negativeSize hf hi hg, rfl⟩
    · exact absurd hs ht
  | wrFh =>
    obtain ⟨hv, rfl⟩ | ⟨-, -, -, rfl⟩ := execWrFh_cases h
    · exact ⟨_, .noFileHeader (.inr rfl) hv, rfl⟩
    · exact absurd ((append_err s _).trans hs) ht
  | wrIh =>
    obtain ⟨hv, rfl⟩ | ⟨-, -, -, rfl⟩ := execWrIh_cases h
    · exact ⟨_, .noInfoHeader (.inr (.inl rfl)) hv, rfl⟩
    · exact absurd ((append_err s _).trans hs) ht
  | wrPal =>
    obtain ⟨-, -, rfl⟩ := execWrPal_cases h
    exact absurd ((append_err s _).trans hs) ht
  | packRow =>
    obtain ⟨hv, rfl⟩ | ⟨hv, hw, rfl⟩ | ⟨hv, hw, -, hr, rfl⟩ | ⟨-, -, -, -, -, -, rfl⟩ := execPackRow_cases h
    · exact ⟨_, .noInfoHeader (.inr (.inr rfl)) hv, rfl⟩
    · exact ⟨_, .negativeWidth hv hw, rfl⟩
    · exact ⟨_, .shortRow hv hw hr, rfl⟩
    · exact absurd ((append_err (s.consume _) _).trans hs) ht
  | quant blue green red =>
    obtain rfl := execQuant_cases h
    exact absurd hs ht
  | clr =>
    obtain rfl := execClr_cases h
    exact absurd rfl ht

/-- A step in which `ERR` turns from 0 only takes the host's event and raises the error. -/
theorem step_afterError (h : step s = .next t) (hs : s.err = 0) (ht : t.err ≠ 0) :
    ∃ e, t = (s.withPending s.pending.tail).afterError e := by
  obtain ⟨-, rfl⟩ | ⟨later, -, rfl⟩ | ⟨later, -, rfl⟩ | ⟨w, later, -, -, hne, -⟩ | ⟨w, later, e, hp, -, -, rfl⟩ |
    ⟨w, later, i, hp, -, -, -, h⟩ := step_cases h
  · exact absurd hs ht
  · exact absurd rfl ht
  · exact absurd rfl ht
  · exact absurd hs hne
  · rw [hp]
    exact ⟨.illegalCommand, rfl⟩
  · rw [hp]
    obtain ⟨e, -, he⟩ := exec_raises (s := s.withPending later) h hs ht
    exact ⟨e, he⟩

/-! ### The halted state and the way out -/

theorem readPort_withPending (n : Nat) (s : State) (later : List HostEvent) :
    readPort n (s.withPending later) = readPort n s := rfl

/-- While BMPQ is halted a step keeps `ERR`, unless its event is the hardware reset or `CLR`. -/
theorem step_halted_err (h : step s = .next t) (hs : s.err ≠ 0) (hr : s.pending.head? ≠ some .hardwareReset)
    (hc : s.pending.head? ≠ some (.command 0x0F000000)) : t.err = s.err := by
  obtain ⟨-, rfl⟩ | ⟨later, hp, -⟩ | ⟨later, hp, -⟩ | ⟨w, later, -, -, -, rfl⟩ | ⟨w, later, e, -, -, he, -⟩ |
    ⟨w, later, i, -, -, -, he, -⟩ := step_cases h
  · rfl
  · exact absurd (congrArg List.head? hp) hr
  · exact absurd (congrArg List.head? hp) hc
  · rfl
  · exact absurd he hs
  · exact absurd he hs

/-- The hardware reset and `CLR` have one effect, whatever `ERR` is (70_reset_and_hazards.md R231). -/
theorem step_reset_or_clr
    (h : s.pending.head? = some .hardwareReset ∨ s.pending.head? = some (.command 0x0F000000)) :
    step s = .next (clear (s.withPending s.pending.tail)) := by
  obtain h | h := h <;> obtain ⟨later, hp⟩ := List.head?_eq_some_iff.1 h
  · rw [step_reset hp, hp, List.tail_cons]
  · rw [step_command hp, present_clr (decode_eq_clr_iff.2 rfl), hp, List.tail_cons]

theorem nextInput_of_cons {files later : List (List Byte)} {file : List Byte} (h : files = file :: later) :
    nextInput files = file := by
  rw [h, nextInput]

/-! ### The obligations on one step -/

/-- Settles O7. -/
theorem idleStepChangesNothing : Obligations.IdleStepChangesNothing :=
  fun _ => step_idle

/-- Settles O8: the word is not `CLR`, and the port does not read the host's queue. -/
theorem haltedIgnoresEveryWordButClr : Obligations.HaltedIgnoresEveryWordButClr := by
  intro w s later hp he hw
  refine ⟨s.withPending later, ?_, rfl, fun n => readPort_withPending n s later⟩
  rw [step_command hp]
  exact present_halted (mt decode_eq_clr_iff.1 hw) he

/-- Settles O27: the step ends in `afterError`, whose two cases are told apart by the code. -/
theorem errorsArePrecise : Obligations.ErrorsArePrecise := by
  intro s t h hs ht
  obtain ⟨e, rfl⟩ := step_afterError h hs ht
  rw [afterError_err]
  refine ⟨fun hne => ?_, fun h4 => ?_⟩
  · exact afterError_of_errorCode_ne _ hne
  · obtain rfl := eq_shortReadError_of_errorCode h4
    rfl

/-- Settles O28: the error is an entry of the matrix, and `ERR` its code. -/
theorem onlyTheListedCommandsRaiseEachError : Obligations.OnlyTheListedCommandsRaiseEachError := by
  intro i s t h hs ht
  obtain ⟨e, he, rfl⟩ := exec_raises h hs ht
  rw [afterError_err]
  cases he with
  | wrongSignature hv hg => exact .inl ⟨rfl, rfl, hv, hg⟩
  | wrongDepth hv hd => exact .inr (.inl ⟨rfl, rfl, hv, hd⟩)
  | shortFileHeader hr => exact .inr (.inr (.inl ⟨rfl, .inl ⟨rfl, hr⟩⟩))
  | shortInfoHeader hr => exact .inr (.inr (.inl ⟨rfl, .inr (.inl ⟨rfl, hr⟩)⟩))
  | shortRow hv hw hr => exact .inr (.inr (.inl ⟨rfl, .inr (.inr ⟨rfl, hv, hw, hr⟩)⟩))
  | negativeSize hf hi hg => exact .inr (.inr (.inr (.inl ⟨rfl, .inl ⟨rfl, hf, hi, hg⟩⟩)))
  | negativeWidth hv hw => exact .inr (.inr (.inr (.inl ⟨rfl, .inr ⟨rfl, hv, hw⟩⟩)))
  | noFileHeader hi hv => exact .inr (.inr (.inr (.inr ⟨rfl, .inl ⟨hi, hv⟩⟩)))
  | noInfoHeader hi hv => exact .inr (.inr (.inr (.inr ⟨rfl, .inr (.inl ⟨hi, hv⟩)⟩)))
  | noHeaders hv => exact .inr (.inr (.inr (.inr ⟨rfl, .inr (.inr ⟨rfl, hv⟩)⟩)))

/-- Settles O29: every other event keeps `ERR`, and these two end in the cleared state. -/
theorem onlyClrAndResetClearErr : Obligations.OnlyClrAndResetClearErr := by
  intro s t h hs
  refine ⟨?_, fun hp => ?_⟩
  · by_cases hr : s.pending.head? = some .hardwareReset
    · exact .inr (.inl hr)
    by_cases hc : s.pending.head? = some (.command 0x0F000000)
    · exact .inr (.inr hc)
    exact .inl (step_halted_err h hs hr hc)
  · rw [step_reset_or_clr hp] at h
    injection h with h
    exact ⟨nextInput s.supply, fun file files => nextInput_of_cons, h.symm⟩

end Sys2Proof.Machine

namespace Sys2Proof.Machine

variable {s t : State} {i : Instr} {later : List Word} {file : List Byte} {W H k : Nat}

/-! ### The first error ends a sequence -/

/-- The word of a command that raises an error is the last that has an effect: those after it are ignored, for none is
`CLR` (60_exceptions.md R211). -/
theorem presentAll_encode_cons_error (h : exec i s = .next t) (hs : s.err = 0) (ht : t.err ≠ 0)
    (hclr : encode .clr ∉ later) : presentAll (encode i :: later) s = .next t :=
  (presentAll_encode_cons h hs).trans (presentAll_halted ht hclr)

/-- After a short read `ICUR` is the length of the input. -/
theorem exhaust_icur_toNat (hl : s.input.length < 2 ^ 64) : s.exhaust.icur.toNat = s.input.length := by
  rw [exhaust_icur, BitVec.toNat_ofNat, Nat.mod_eq_of_lt hl]

/-- A signed register is negative from 2^31 up (00_scope.md R9). -/
theorem toInt_neg_of_le {v : BitVec 32} (h : 2 ^ 31 ≤ v.toNat) : v.toInt < 0 :=
  BitVec.toInt_neg_iff.2 (by omega)

/-! ### Where `CONVERT` ends before the first row -/

/-- With fewer than 14 bytes `RD_FH` raises `ShortReadError` (60_exceptions.md R204). -/
theorem presentAll_convertReadWords_of_short_fileHeader (h14 : file.length < 14) :
    presentAll convertReadWords (bindInput file s) =
      .next (raise .shortReadError (clear (bindInput file s)).exhaust) := by
  have hshort : exec .rdFh (clear (bindInput file s)) =
      .next (raise .shortReadError (clear (bindInput file s)).exhaust) :=
    execRdFh_of_short (h14.trans (by decide)) (h14.trans_le (Nat.le_add_left _ _))
  exact (presentAll_cons_next (present_clr (decode_encode .clr))).trans
    (presentAll_encode_cons_error hshort rfl raise_err_ne_zero (by decide))

/-- With a good signature but fewer than 54 bytes `RD_IH` raises `ShortReadError` (60_exceptions.md R204). -/
theorem presentAll_convertReadWords_of_short_infoHeader (h14 : 14 ≤ file.length) (h54 : file.length < 54)
    (hg : leValue (slice file 0 2) = 0x4D42) :
    presentAll convertReadWords (bindInput file s) =
      .next (raise .shortReadError (fileHeaderRead file s).exhaust) := by
  have hl : file.length < 2 ^ 64 := h54.trans (by decide)
  have hsig : exec .chkSig (fileHeaderRead file s) = .next (fileHeaderRead file s) :=
    execChkSig_of_match rfl ((fileHeaderRead_signature_eq_iff h14).2 hg)
  have hshort : exec .rdIh (fileHeaderRead file s) = .next (raise .shortReadError (fileHeaderRead file s).exhaust) :=
    execRdIh_of_short hl h54
  exact (presentAll_clr_rdFh hl h14).trans <| (presentAll_encode_cons hsig rfl).trans
    (presentAll_encode_cons_error hshort rfl raise_err_ne_zero (by decide))

/-- A width or height field of 2^31 or more is a negative register. -/
theorem headersRead_negative (h54 : 54 ≤ file.length)
    (hn : 2 ^ 31 ≤ leValue (slice file 18 4) ∨ 2 ^ 31 ≤ leValue (slice file 22 4)) :
    (headersRead file s).ih.width.toInt < 0 ∨ (headersRead file s).ih.height.toInt < 0 := by
  have hw : (headersRead file s).ih.width.toNat = leValue (slice file 18 4) :=
    le32At_slice_toNat h54 (by decide : 4 + 4 ≤ 40)
  have hh : (headersRead file s).ih.height.toNat = leValue (slice file 22 4) :=
    le32At_slice_toNat h54 (by decide : 8 + 4 ≤ 40)
  rw [← hw, ← hh] at hn
  exact hn.imp toInt_neg_of_le toInt_neg_of_le

/-- On a negative width or height `HDR_CVT` raises `GeometryError`, and the host packs no row (60_exceptions.md R205,
44_system_and_sequences.md R193 line 14). -/
theorem convert_of_negative (hl : file.length < 2 ^ 64) (h54 : 54 ≤ file.length)
    (hg : leValue (slice file 0 2) = 0x4D42) (hd : leValue (slice file 28 2) = 24)
    (hn : 2 ^ 31 ≤ leValue (slice file 18 4) ∨ 2 ^ 31 ≤ leValue (slice file 22 4)) :
    convert file s = .next (raise .geometryError (headersRead file s)) := by
  have hread := presentAll_convertReadWords_of_depth_eq (s := s) hl h54 hg hd
  have hcvt : exec .hdrCvt (headersRead file s) = .next (raise .geometryError (headersRead file s)) :=
    execHdrCvt_of_negative rfl rfl (headersRead_negative h54 hn)
  have hwrite : presentAll convertWriteWords (headersRead file s) = .next (raise .geometryError (headersRead file s)) :=
    presentAll_encode_cons_error hcvt rfl raise_err_ne_zero (by decide)
  have hrows : rowCount (raise .geometryError (headersRead file s)) = 0 := by
    rw [rowCount, hostReadErr_eq, if_neg raise_err_ne_zero]
  rw [convert_of_read_ok hread rfl hwrite, hrows]
  rfl

/-! ### Where `CONVERT` ends within a row -/

/-- `CONVERT` of an input that ends within row `k` packs the `k` rows before it and ends in the short read
(60_exceptions.md R222). -/
theorem Bitmap24.convert_of_short_row (hf : Bitmap24 file W H) (s : State) (hk : k < H)
    (hin : 54 + k * inRowBytes W ≤ file.length) (hshort : file.length < 54 + (k + 1) * inRowBytes W) :
    convert file s =
      .next (raise .shortReadError (rowsPacked W k (headersWritten file W H s)).exhaust) := by
  have hw : (headersRead file s).ih.width.toInt = W := headersRead_width_toInt hf.headers hf.width hf.width_lt
  have hcur := rowsPacked_icur (s := headersWritten file W H s) hf.bounded
    (by rw [headersWritten_icur_toNat]; exact hin)
  rw [headersWritten_icur_toNat] at hcur
  rw [Nat.succ_mul, ← Nat.add_assoc, ← hcur] at hshort
  have hexec : exec .packRow (rowsPacked W k (headersWritten file W H s)) =
      .next (raise .shortReadError (rowsPacked W k (headersWritten file W H s)).exhaust) :=
    execPackRow_of_short rfl ((widthOf_eq _).trans hw) hf.bounded hshort
  obtain ⟨n, rfl⟩ := Nat.exists_eq_add_of_lt hk
  rw [hf.convert_rowsPacked s hk.le hin, Nat.add_assoc, Nat.add_sub_cancel_left, List.replicate_succ]
  refine presentAll_encode_cons_error hexec rfl raise_err_ne_zero fun h => ?_
  exact absurd (List.eq_of_mem_replicate h) (by decide)

/-! ### The obligations on `CONVERT` -/

/-- Settles O42: each case ends at the command that finds the first error. -/
theorem convertReportsTheFirstErrorInOrder : Obligations.ConvertReportsTheFirstErrorInOrder := by
  intro s file hl
  refine ⟨fun h14 => ?_, fun h14 hg => ?_, fun h14 hg h54 => ?_, fun h54 hg hd => ?_, fun h54 hg hd hn => ?_⟩
  · have hread := presentAll_convertReadWords_of_short_fileHeader (s := s) h14
    have hcur := exhaust_icur_toNat (s := clear (bindInput file s)) hl
    exact ⟨_, convert_of_read_err hread raise_err_ne_zero, rfl, hcur, rfl⟩
  · have hread := presentAll_of_signature_ne (s := s) (later := [encode .rdIh, encode .chkBpp]) hl h14 hg (by decide)
    exact ⟨_, convert_of_read_err hread raise_err_ne_zero, rfl, rfl, rfl, rfl⟩
  · have hread := presentAll_convertReadWords_of_short_infoHeader (s := s) h14 h54 hg
    have hcur := exhaust_icur_toNat (s := fileHeaderRead file s) hl
    exact ⟨_, convert_of_read_err hread raise_err_ne_zero, rfl, hcur, rfl, rfl⟩
  · have hread := presentAll_convertReadWords_of_depth_ne (s := s) hl h54 hg hd
    exact ⟨_, convert_of_read_err hread raise_err_ne_zero, rfl, rfl, rfl⟩
  · exact ⟨_, convert_of_negative hl h54 hg hd hn, rfl, rfl, rfl⟩

/-- Settles O43: a short read leaves `OUT` as it is after the `k` complete rows. -/
theorem convertStopsAtTheFirstIncompleteRow : Obligations.ConvertStopsAtTheFirstIncompleteRow := by
  intro s file W H k hl hg hd hw hwl hh hhl hk hin hshort
  have hf := bitmap24_of_rows hl hg hd hw hwl hh hhl hin
  obtain ⟨hlen, ⟨h0, h2, h6, h10, h14, h28, h30, h34, h38, hpal⟩, hrows⟩ := hf.out_after_rows s hin
  have hcur := exhaust_icur_toNat (s := rowsPacked W k (headersWritten file W H s)) hl
  exact ⟨_, hf.convert_of_short_row s hk hin hshort, rfl, hcur, hlen, h0, h2, h6, h10, h14, h28, h30, h34, h38, hpal,
    hrows⟩

end Sys2Proof.Machine
